-- ==== Sys2Proof/Word.lean ====
section
/-! DEFINITION. The word types of the block: bytes, instruction words, nibbles and 12-bit addresses
(00_scope.md R6, R8; 30_encoding.md R72). -/

namespace Sys2Proof

/-- An 8-bit value: a general register, a timer, a memory byte, the immediate `kk`. -/
abbrev Byte := BitVec 8

/-- A 16-bit value: an instruction word, `pc`, `I`, a stack entry. -/
abbrev Word := BitVec 16

/-- A 4-bit field of an instruction word: a register index `x` or `y`, the count `n`. -/
abbrev Nibble := BitVec 4

/-- The 12-bit field `nnn`. -/
abbrev Addr12 := BitVec 12

end Sys2Proof
end

