-- ==== Sys2Proof/Syntax.lean ====
section
/-! DEFINITION. The instructions (30_encoding.md R76, R77): one constructor for each row of
spec/opcode_table.json. Bits that the decoder ignores (R78) are kept as the field `ign`, so that an
instruction has one word and a word one instruction, and FAULT.instr can record the fetched word
(10_state.md R34; log entry 16). No meaning reads `ign` for anything else. -/

namespace Sys2Proof

/-- An instruction, with its operand fields as 30_encoding.md R72 names them. -/
inductive Instr where
  /-- CLS, `0--0`. -/
  | cls (ign : Byte)
  /-- RET, `0--E`. -/
  | ret (ign : Byte)
  /-- JP nnn, `1nnn`. -/
  | jp (nnn : Addr12)
  /-- CALL nnn, `2nnn`. -/
  | call (nnn : Addr12)
  /-- SE Vx, kk, `3xkk`. -/
  | seImm (x : Nibble) (kk : Byte)
  /-- SNE Vx, kk, `4xkk`. -/
  | sneImm (x : Nibble) (kk : Byte)
  /-- SE Vx, Vy, `5xy-`. -/
  | seReg (x y : Nibble) (ign : Nibble)
  /-- LD Vx, kk, `6xkk`. -/
  | ldImm (x : Nibble) (kk : Byte)
  /-- ADD Vx, kk, `7xkk`. -/
  | addImm (x : Nibble) (kk : Byte)
  /-- LD Vx, Vy, `8xy0`. -/
  | ldReg (x y : Nibble)
  /-- OR Vx, Vy, `8xy1`. -/
  | orReg (x y : Nibble)
  /-- AND Vx, Vy, `8xy2`. -/
  | andReg (x y : Nibble)
  /-- XOR Vx, Vy, `8xy3`. -/
  | xorReg (x y : Nibble)
  /-- ADD Vx, Vy, `8xy4`. -/
  | addReg (x y : Nibble)
  /-- SUB Vx, Vy, `8xy5`. -/
  | sub (x y : Nibble)
  /-- SHR Vx, Vy, `8xy6`. -/
  | shr (x y : Nibble)
  /-- SUBN Vx, Vy, `8xy7`. -/
  | subn (x y : Nibble)
  /-- SHL Vx, Vy, `8xyE`. -/
  | shl (x y : Nibble)
  /-- SNE Vx, Vy, `9xy-`. -/
  | sneReg (x y : Nibble) (ign : Nibble)
  /-- LD I, nnn, `Annn`. -/
  | ldI (nnn : Addr12)
  /-- JP V0, nnn, `Bnnn`. -/
  | jpV0 (nnn : Addr12)
  /-- RND Vx, kk, `Cxkk`. -/
  | rnd (x : Nibble) (kk : Byte)
  /-- DRW Vx, Vy, n, `Dxyn`. -/
  | drw (x y n : Nibble)
  /-- SKP Vx, `Ex-E`. -/
  | skp (x : Nibble) (ign : Nibble)
  /-- SKNP Vx, `Ex-1`. -/
  | sknp (x : Nibble) (ign : Nibble)
  /-- LD Vx, DT, `Fx07`. -/
  | ldVxDT (x : Nibble)
  /-- LD Vx, K, `Fx0A`. -/
  | ldVxK (x : Nibble)
  /-- LD DT, Vx, `Fx15`. -/
  | ldDTVx (x : Nibble)
  /-- LD ST, Vx, `Fx18`. -/
  | ldSTVx (x : Nibble)
  /-- ADD I, Vx, `Fx1E`. -/
  | addI (x : Nibble)
  /-- LD F, Vx, `Fx29`. -/
  | ldF (x : Nibble)
  /-- LD B, Vx, `Fx33`. -/
  | ldB (x : Nibble)
  /-- LD [I], Vx, `Fx55`. -/
  | storeRegs (x : Nibble)
  /-- LD Vx, [I], `Fx65`. -/
  | loadRegs (x : Nibble)
  /-- An unmapped word of family 0x0; `arg` is its bits 11-0. -/
  | noop0 (arg : Addr12)
  /-- An unmapped word of family 0x8; `arg` is its bits 11-0. -/
  | noop8 (arg : Addr12)
  /-- An unmapped word of family 0xE; `arg` is its bits 11-0. -/
  | noopE (arg : Addr12)
  /-- An unmapped word of family 0xF; `arg` is its bits 11-0. -/
  | noopF (arg : Addr12)
  deriving DecidableEq, Repr

end Sys2Proof
end

