-- ==== Sys2Proof/WellFormed.lean ====
section
/-! DEFINITION. Which instruction terms stand for a word: a no-op of a family that dispatches twice carries
a secondary key that no instruction of the family has (30_encoding.md R75, R77). Every other field admits
all its values (10_state.md R20, 30_encoding.md R73). -/

namespace Sys2Proof

/-- The mapped keys n of family 0x0: CLS and RET (R76). -/
def keysOf0 : List Nibble := [0x0, 0xE]

/-- The mapped keys n of family 0x8: the nine 8xy* operations (R76). -/
def keysOf8 : List Nibble := [0x0, 0x1, 0x2, 0x3, 0x4, 0x5, 0x6, 0x7, 0xE]

/-- The mapped keys n of family 0xE: SKP and SKNP (R76). -/
def keysOfE : List Nibble := [0xE, 0x1]

/-- The mapped keys kk of family 0xF: the nine Fx** operations (R76). -/
def keysOfF : List Byte := [0x07, 0x0A, 0x15, 0x18, 0x1E, 0x29, 0x33, 0x55, 0x65]

/-- The secondary key n, bits 3-0 of the operand bits (R75). -/
def keyN (arg : Addr12) : Nibble := arg.extractLsb' 0 4

/-- The secondary key kk, bits 7-0 of the operand bits (R75). -/
def keyKK (arg : Addr12) : Byte := arg.extractLsb' 0 8

/-- The check: a no-op's key is unmapped in its family. -/
def Instr.wellFormed : Instr → Bool
  | .noop0 arg => !keysOf0.contains (keyN arg)
  | .noop8 arg => !keysOf8.contains (keyN arg)
  | .noopE arg => !keysOfE.contains (keyN arg)
  | .noopF arg => !keysOfF.contains (keyKK arg)
  | .cls _ | .ret _ | .jp _ | .call _ | .seImm _ _ | .sneImm _ _ | .seReg _ _ _ | .ldImm _ _
  | .addImm _ _ | .ldReg _ _ | .orReg _ _ | .andReg _ _ | .xorReg _ _ | .addReg _ _ | .sub _ _
  | .shr _ _ | .subn _ _ | .shl _ _ | .sneReg _ _ _ | .ldI _ | .jpV0 _ | .rnd _ _ | .drw _ _ _
  | .skp _ _ | .sknp _ _ | .ldVxDT _ | .ldVxK _ | .ldDTVx _ | .ldSTVx _ | .addI _ | .ldF _
  | .ldB _ | .storeRegs _ | .loadRegs _ => true

end Sys2Proof
end

