-- ==== Sys2Proof/Decode.lean ====
section
/-! DEFINITION. The decoder (30_encoding.md R70-R79, 40_cycle_dispatch.md R93), total on words and on byte
lists, and after it the encoder and the opcode map's masks and patterns (R76). -/

namespace Sys2Proof

/-- Why a byte list is no instruction. Every 16-bit word is one (R79), so only a missing byte is a reason. -/
inductive DecodeError where
  /-- Fewer than the two bytes of an instruction (R70) were given; `given` of them. -/
  | truncated (given : Nat)
  deriving DecidableEq, Repr

/-- `op = w[15:12]` (R72). -/
def fieldOp (w : Word) : Nibble := w.extractLsb' 12 4
/-- `x = w[11:8]` (R72). -/
def fieldX (w : Word) : Nibble := w.extractLsb' 8 4
/-- `y = w[7:4]` (R72). -/
def fieldY (w : Word) : Nibble := w.extractLsb' 4 4
/-- `n = w[3:0]` (R72). -/
def fieldN (w : Word) : Nibble := w.extractLsb' 0 4
/-- `kk = w[7:0]` (R72). -/
def fieldKK (w : Word) : Byte := w.extractLsb' 0 8
/-- `nnn = w[11:0]` (R72). -/
def fieldNNN (w : Word) : Addr12 := w.extractLsb' 0 12
/-- `w[11:4]`, which CLS and RET ignore (R78). -/
def fieldMid (w : Word) : Byte := w.extractLsb' 4 8

/-- Second level of family 0x0, on the key n (R75, R93). -/
def decode0 (w : Word) : Instr :=
  if fieldN w = 0x0 then .cls (fieldMid w)
  else if fieldN w = 0xE then .ret (fieldMid w)
  else .noop0 (fieldNNN w)

/-- Second level of family 0x8, on the key n (R75, R93, C2). -/
def decode8 (w : Word) : Instr :=
  if fieldN w = 0x0 then .ldReg (fieldX w) (fieldY w)
  else if fieldN w = 0x1 then .orReg (fieldX w) (fieldY w)
  else if fieldN w = 0x2 then .andReg (fieldX w) (fieldY w)
  else if fieldN w = 0x3 then .xorReg (fieldX w) (fieldY w)
  else if fieldN w = 0x4 then .addReg (fieldX w) (fieldY w)
  else if fieldN w = 0x5 then .sub (fieldX w) (fieldY w)
  else if fieldN w = 0x6 then .shr (fieldX w) (fieldY w)
  else if fieldN w = 0x7 then .subn (fieldX w) (fieldY w)
  else if fieldN w = 0xE then .shl (fieldX w) (fieldY w)
  else .noop8 (fieldNNN w)

/-- Second level of family 0xE, on the key n (R75, R93). -/
def decodeE (w : Word) : Instr :=
  if fieldN w = 0xE then .skp (fieldX w) (fieldY w)
  else if fieldN w = 0x1 then .sknp (fieldX w) (fieldY w)
  else .noopE (fieldNNN w)

/-- Second level of family 0xF, on the key kk (R75, R93). -/
def decodeF (w : Word) : Instr :=
  if fieldKK w = 0x07 then .ldVxDT (fieldX w)
  else if fieldKK w = 0x0A then .ldVxK (fieldX w)
  else if fieldKK w = 0x15 then .ldDTVx (fieldX w)
  else if fieldKK w = 0x18 then .ldSTVx (fieldX w)
  else if fieldKK w = 0x1E then .addI (fieldX w)
  else if fieldKK w = 0x29 then .ldF (fieldX w)
  else if fieldKK w = 0x33 then .ldB (fieldX w)
  else if fieldKK w = 0x55 then .storeRegs (fieldX w)
  else if fieldKK w = 0x65 then .loadRegs (fieldX w)
  else .noopF (fieldNNN w)

/-- The decoder of one word: primary level on op, then the second level of families 0x0, 0x8, 0xE and 0xF
(R74, R75, R93). The last branch is family 0xF, the only op value left. -/
def decodeWord (w : Word) : Instr :=
  if fieldOp w = 0x0 then decode0 w
  else if fieldOp w = 0x1 then .jp (fieldNNN w)
  else if fieldOp w = 0x2 then .call (fieldNNN w)
  else if fieldOp w = 0x3 then .seImm (fieldX w) (fieldKK w)
  else if fieldOp w = 0x4 then .sneImm (fieldX w) (fieldKK w)
  else if fieldOp w = 0x5 then .seReg (fieldX w) (fieldY w) (fieldN w)
  else if fieldOp w = 0x6 then .ldImm (fieldX w) (fieldKK w)
  else if fieldOp w = 0x7 then .addImm (fieldX w) (fieldKK w)
  else if fieldOp w = 0x8 then decode8 w
  else if fieldOp w = 0x9 then .sneReg (fieldX w) (fieldY w) (fieldN w)
  else if fieldOp w = 0xA then .ldI (fieldNNN w)
  else if fieldOp w = 0xB then .jpV0 (fieldNNN w)
  else if fieldOp w = 0xC then .rnd (fieldX w) (fieldKK w)
  else if fieldOp w = 0xD then .drw (fieldX w) (fieldY w) (fieldN w)
  else if fieldOp w = 0xE then decodeE w
  else decodeF w

/-- The word of two bytes, the one at the lower address in bits 15-8 (R71). -/
def wordOfBytes (hi lo : Byte) : Word := hi ++ lo

/-- The decoder on bytes: one instruction and the bytes after it (R70, R71). -/
def decode : List Byte → Except DecodeError (Instr × List Byte)
  | hi :: lo :: rest => .ok (decodeWord (wordOfBytes hi lo), rest)
  | [_] => .error (.truncated 1)
  | [] => .error (.truncated 0)

/-- The byte of a word that stands at the lower address (R71). -/
def highByte (w : Word) : Byte := w.extractLsb' 8 8
/-- The byte of a word that stands at the higher address (R71). -/
def lowByte (w : Word) : Byte := w.extractLsb' 0 8

/-- The host's table word: the low `nbits` bits of `w` as one instruction, laid out in memory order and
given to the decoder. -/
def decodeTableWord (nbits w : Nat) : Option Instr :=
  let word : Word := BitVec.ofNat 16 (w % 2 ^ nbits)
  match decode [highByte word, lowByte word] with
  | .ok (i, _) => some i
  | .error _ => none

/-- The encoder (R76): each format of R72 as the concatenation of its fields, bits 15-12 first. -/
def encode : Instr → Word
  | .cls ign => 0x0#4 ++ ign ++ 0x0#4
  | .ret ign => 0x0#4 ++ ign ++ 0xE#4
  | .jp nnn => 0x1#4 ++ nnn
  | .call nnn => 0x2#4 ++ nnn
  | .seImm x kk => 0x3#4 ++ x ++ kk
  | .sneImm x kk => 0x4#4 ++ x ++ kk
  | .seReg x y ign => 0x5#4 ++ x ++ y ++ ign
  | .ldImm x kk => 0x6#4 ++ x ++ kk
  | .addImm x kk => 0x7#4 ++ x ++ kk
  | .ldReg x y => 0x8#4 ++ x ++ y ++ 0x0#4
  | .orReg x y => 0x8#4 ++ x ++ y ++ 0x1#4
  | .andReg x y => 0x8#4 ++ x ++ y ++ 0x2#4
  | .xorReg x y => 0x8#4 ++ x ++ y ++ 0x3#4
  | .addReg x y => 0x8#4 ++ x ++ y ++ 0x4#4
  | .sub x y => 0x8#4 ++ x ++ y ++ 0x5#4
  | .shr x y => 0x8#4 ++ x ++ y ++ 0x6#4
  | .subn x y => 0x8#4 ++ x ++ y ++ 0x7#4
  | .shl x y => 0x8#4 ++ x ++ y ++ 0xE#4
  | .sneReg x y ign => 0x9#4 ++ x ++ y ++ ign
  | .ldI nnn => 0xA#4 ++ nnn
  | .jpV0 nnn => 0xB#4 ++ nnn
  | .rnd x kk => 0xC#4 ++ x ++ kk
  | .drw x y n => 0xD#4 ++ x ++ y ++ n
  | .skp x ign => 0xE#4 ++ x ++ ign ++ 0xE#4
  | .sknp x ign => 0xE#4 ++ x ++ ign ++ 0x1#4
  | .ldVxDT x => 0xF#4 ++ x ++ 0x07#8
  | .ldVxK x => 0xF#4 ++ x ++ 0x0A#8
  | .ldDTVx x => 0xF#4 ++ x ++ 0x15#8
  | .ldSTVx x => 0xF#4 ++ x ++ 0x18#8
  | .addI x => 0xF#4 ++ x ++ 0x1E#8
  | .ldF x => 0xF#4 ++ x ++ 0x29#8
  | .ldB x => 0xF#4 ++ x ++ 0x33#8
  | .storeRegs x => 0xF#4 ++ x ++ 0x55#8
  | .loadRegs x => 0xF#4 ++ x ++ 0x65#8
  | .noop0 arg => 0x0#4 ++ arg
  | .noop8 arg => 0x8#4 ++ arg
  | .noopE arg => 0xE#4 ++ arg
  | .noopF arg => 0xF#4 ++ arg

/-- The bytes of an instruction, in the order they stand in memory (R71). -/
def encodeBytes (i : Instr) : List Byte := [highByte (encode i), lowByte (encode i)]

/-- A row of the opcode map: a word `w` selects it when `w &&& mask = pattern` (R76). -/
structure OpcodeRow where
  mask    : Word
  pattern : Word
  deriving DecidableEq, Repr

/-- Whether a word selects a row (R76). -/
def OpcodeRow.selects (r : OpcodeRow) (w : Word) : Bool := w &&& r.mask == r.pattern

/-- The mask and the pattern that the opcode map gives an instruction (R76); a no-op has its family's. -/
def Instr.row : Instr → OpcodeRow
  | .cls _ => ⟨0xF00F, 0x0000⟩
  | .ret _ => ⟨0xF00F, 0x000E⟩
  | .jp _ => ⟨0xF000, 0x1000⟩
  | .call _ => ⟨0xF000, 0x2000⟩
  | .seImm _ _ => ⟨0xF000, 0x3000⟩
  | .sneImm _ _ => ⟨0xF000, 0x4000⟩
  | .seReg _ _ _ => ⟨0xF000, 0x5000⟩
  | .ldImm _ _ => ⟨0xF000, 0x6000⟩
  | .addImm _ _ => ⟨0xF000, 0x7000⟩
  | .ldReg _ _ => ⟨0xF00F, 0x8000⟩
  | .orReg _ _ => ⟨0xF00F, 0x8001⟩
  | .andReg _ _ => ⟨0xF00F, 0x8002⟩
  | .xorReg _ _ => ⟨0xF00F, 0x8003⟩
  | .addReg _ _ => ⟨0xF00F, 0x8004⟩
  | .sub _ _ => ⟨0xF00F, 0x8005⟩
  | .shr _ _ => ⟨0xF00F, 0x8006⟩
  | .subn _ _ => ⟨0xF00F, 0x8007⟩
  | .shl _ _ => ⟨0xF00F, 0x800E⟩
  | .sneReg _ _ _ => ⟨0xF000, 0x9000⟩
  | .ldI _ => ⟨0xF000, 0xA000⟩
  | .jpV0 _ => ⟨0xF000, 0xB000⟩
  | .rnd _ _ => ⟨0xF000, 0xC000⟩
  | .drw _ _ _ => ⟨0xF000, 0xD000⟩
  | .skp _ _ => ⟨0xF00F, 0xE00E⟩
  | .sknp _ _ => ⟨0xF00F, 0xE001⟩
  | .ldVxDT _ => ⟨0xF0FF, 0xF007⟩
  | .ldVxK _ => ⟨0xF0FF, 0xF00A⟩
  | .ldDTVx _ => ⟨0xF0FF, 0xF015⟩
  | .ldSTVx _ => ⟨0xF0FF, 0xF018⟩
  | .addI _ => ⟨0xF0FF, 0xF01E⟩
  | .ldF _ => ⟨0xF0FF, 0xF029⟩
  | .ldB _ => ⟨0xF0FF, 0xF033⟩
  | .storeRegs _ => ⟨0xF0FF, 0xF055⟩
  | .loadRegs _ => ⟨0xF0FF, 0xF065⟩
  | .noop0 _ => ⟨0xF000, 0x0000⟩
  | .noop8 _ => ⟨0xF000, 0x8000⟩
  | .noopE _ => ⟨0xF000, 0xE000⟩
  | .noopF _ => ⟨0xF000, 0xF000⟩

/-- The 34 instruction rows of the opcode map, in its order (R76). -/
def instructionRows : List OpcodeRow :=
  [⟨0xF00F, 0x0000⟩, ⟨0xF00F, 0x000E⟩, ⟨0xF000, 0x1000⟩, ⟨0xF000, 0x2000⟩, ⟨0xF000, 0x3000⟩,
    ⟨0xF000, 0x4000⟩, ⟨0xF000, 0x5000⟩, ⟨0xF000, 0x6000⟩, ⟨0xF000, 0x7000⟩] ++
  [⟨0xF00F, 0x8000⟩, ⟨0xF00F, 0x8001⟩, ⟨0xF00F, 0x8002⟩, ⟨0xF00F, 0x8003⟩, ⟨0xF00F, 0x8004⟩,
    ⟨0xF00F, 0x8005⟩, ⟨0xF00F, 0x8006⟩, ⟨0xF00F, 0x8007⟩, ⟨0xF00F, 0x800E⟩] ++
  [⟨0xF000, 0x9000⟩, ⟨0xF000, 0xA000⟩, ⟨0xF000, 0xB000⟩, ⟨0xF000, 0xC000⟩, ⟨0xF000, 0xD000⟩,
    ⟨0xF00F, 0xE00E⟩, ⟨0xF00F, 0xE001⟩] ++
  [⟨0xF0FF, 0xF007⟩, ⟨0xF0FF, 0xF00A⟩, ⟨0xF0FF, 0xF015⟩, ⟨0xF0FF, 0xF018⟩, ⟨0xF0FF, 0xF01E⟩,
    ⟨0xF0FF, 0xF029⟩, ⟨0xF0FF, 0xF033⟩, ⟨0xF0FF, 0xF055⟩, ⟨0xF0FF, 0xF065⟩]

end Sys2Proof
end

