-- ==== Sys2Proof/Config.lean ====
section
/-! DEFINITION. What an implementation fixes (00_scope.md R7, 92_eei_decisions.md, the parameters summary)
and the block's one free value, the random byte (10_state.md R35, D16). The values this hardware takes
stand in Sys2Proof/Machine/Params.lean. -/

namespace Sys2Proof

/-- `RANGE_POLICY` (D4): what an out-of-range memory, stack or key index does. -/
inductive RangePolicy where
  /-- The instruction raises the precise fault of 60_exceptions.md R221. -/
  | fault
  /-- The index is taken modulo the size of what it indexes. -/
  | wrap
  deriving DecidableEq, Repr

/-- `EDGE_POLICY` (D5): what a set sprite bit whose target pixel is off-screen does (43_display.md R164). -/
inductive EdgePolicy where
  /-- The pixel is not drawn and cannot collide. -/
  | clip
  /-- The target is reduced modulo 64 and modulo 32 and drawn. -/
  | wrap
  /-- The draw raises PixelRange. -/
  | fault
  deriving DecidableEq, Repr

/-- `SHIFT_SRC` (D7): which register SHR and SHL read (42_alu.md R139, R141). -/
inductive ShiftSrc where
  /-- The source is V[y]. -/
  | y
  /-- The source is V[x], and `y` is not used. -/
  | x
  deriving DecidableEq, Repr

/-- The named parameters of 00_scope.md R7, less `rand8`, which is an input and not a constant. -/
structure Config where
  rangePolicy : RangePolicy
  edgePolicy  : EdgePolicy
  shiftSrc    : ShiftSrc
  /-- `FONT_BASE`: the address of glyph 0. -/
  fontBase    : Nat
  /-- `FONT_DATA`: the 80 glyph bytes, glyph 0 first, top row first (10_state.md R30). -/
  fontData    : List Byte
  deriving DecidableEq, Repr

/-- What 00_scope.md R7 and 10_state.md R30 ask of `FONT_BASE` and `FONT_DATA`: 80 bytes that lie inside
the reserved region, each with a zero low nibble. -/
def Config.wellFormed (c : Config) : Bool :=
  c.fontBase + 80 ≤ 0x200 && c.fontData.length == 80 && c.fontData.all (fun b => b &&& 0x0F == 0)

/-- FREE VALUE (10_state.md R35, 40_cycle_dispatch.md R99, D16; log entry 12): the byte that the `k`-th
executed RND draws when the host has named none. It has no body: nothing constrains it. -/
opaque Config.rand8 : Nat → Byte

end Sys2Proof
end

