-- ==== Sys2Proof/Machine/Params.lean ====
section
/-! DEFINITION. The parameter values this hardware takes (00_scope.md R7, 92_eei_decisions.md, the
parameters summary). -/

namespace Sys2Proof.Machine

/-- `FONT_DATA`, glyphs 0 to F of five rows each (10_state.md R30, D3; log entry 2). -/
def fontGlyphs : List Byte :=
  [0xF0, 0x90, 0x90, 0x90, 0xF0,  0x20, 0x60, 0x20, 0x20, 0x70,
   0xF0, 0x10, 0xF0, 0x80, 0xF0,  0xF0, 0x10, 0xF0, 0x10, 0xF0] ++
  [0x90, 0x90, 0xF0, 0x10, 0x10,  0xF0, 0x80, 0xF0, 0x10, 0xF0,
   0xF0, 0x80, 0xF0, 0x90, 0xF0,  0xF0, 0x10, 0x20, 0x40, 0x40] ++
  [0xF0, 0x90, 0xF0, 0x90, 0xF0,  0xF0, 0x90, 0xF0, 0x10, 0xF0,
   0xF0, 0x90, 0xF0, 0x90, 0x90,  0xE0, 0x90, 0xE0, 0x90, 0xE0] ++
  [0xF0, 0x80, 0x80, 0x80, 0xF0,  0xE0, 0x90, 0x90, 0x90, 0xE0,
   0xF0, 0x80, 0xF0, 0x80, 0xF0,  0xF0, 0x80, 0xF0, 0x80, 0x80]

/-- This hardware's parameters: `FONT_BASE = 0x050` (D2), `RANGE_POLICY = fault` (D4),
`EDGE_POLICY = clip` (D5), `SHIFT_SRC = Y` (D7). -/
def hw : Config where
  rangePolicy := .fault
  edgePolicy := .clip
  shiftSrc := .y
  fontBase := 0x050
  fontData := fontGlyphs

end Sys2Proof.Machine
end

