-- ==== Sys2Proof/Machine/State.lean ====
section
/-! DEFINITION. The state of the block as plain data (10_state.md R20-R37), the reasons a step can stop,
and the state after reset. -/

namespace Sys2Proof.Machine

/-- Memory (10_state.md R29), as the cells whose byte differs from the reset contents. Sys2Proof/Machine/Ops.lean
gives what an address reads as and the canonical form `Memory.wf`. -/
abbrev Memory := List Host.Cell

/-- The framebuffer `fb[y][x]`: 32 rows of 64 one-bit pixels, true for on (10_state.md R31, D15). -/
abbrev Framebuffer := Vector (Vector Bool 64) 32

/-- The wait-for-key state `wk` (10_state.md R33). -/
inductive WaitKey where
  /-- No key latched. -/
  | idle
  /-- Key `k` was seen pressed, and its release is awaited. -/
  | keyLatched (k : Fin 16)
  deriving DecidableEq, Repr

/-- The causes of 60_exceptions.md R222. The value 7 of FAULT.cause is never written, so it has no name. -/
inductive Cause where
  | noFault | fetchRange | memRange | stackOverflow | stackUnderflow | keyRange | pixelRange
  deriving DecidableEq, Repr

/-- The FAULT register (10_state.md R34, D17): visible to the host only. -/
structure FaultReg where
  cause : Cause
  /-- The address of the faulting instruction. -/
  pc    : Word
  /-- The fetched word, or 0 for a fetch fault. -/
  instr : Word
  /-- The cause-specific value of 60_exceptions.md R223. -/
  info  : Word
  deriving DecidableEq, Repr

/-- FAULT with all fields 0 (R37). -/
def FaultReg.clear : FaultReg := ⟨.noFault, 0, 0, 0⟩

end Sys2Proof.Machine

namespace Sys2Proof.Machine

/-- The state of the block. The last two fields are the model's own (log entry 12): they carry the random
byte, which is an input of a cycle and not state of the block (10_state.md R35). -/
structure State where
  /-- V[0] to V[15] (R20); V[15] is VF (R21). -/
  v        : Vector Byte 16
  /-- The index register I (R22). -/
  i        : Word
  /-- The program counter (R23, R24). -/
  pc       : Word
  /-- The stack of return addresses, a store of its own (R25). -/
  stack    : Vector Word 16
  /-- The stack pointer; 0 is the empty stack (R26). -/
  sp       : Byte
  /-- The delay timer DT (R27). -/
  dt       : Byte
  /-- The sound timer ST (R28). -/
  st       : Byte
  /-- Memory (R29, R30). -/
  mem      : Memory
  /-- The framebuffer (R31). -/
  fb       : Framebuffer
  /-- The key flags, true for pressed (R32). -/
  keys     : Vector Bool 16
  /-- The wait-for-key state (R33). -/
  wk       : WaitKey
  /-- The FAULT register (R34). -/
  faultReg : FaultReg
  /-- MODEL'S OWN: the `rand8` the host has supplied for the next RND (R35, R99, R235), if it has. -/
  randIn   : Option Byte
  /-- MODEL'S OWN: how many random bytes RND has consumed. -/
  draws    : Nat
  deriving DecidableEq, Repr

/-- The state right after reset (10_state.md R37, 70_reset_and_hazards.md R250). Memory lists nothing: what it
reads as then is its reset contents, zero but for the font. `randIn` and `draws` are a DESIGN CHOICE
(log entry 12). -/
def State.reset : State where
  v := Vector.replicate 16 0
  i := 0
  pc := 0x200
  stack := Vector.replicate 16 0
  sp := 0
  dt := 0
  st := 0
  mem := []
  fb := Vector.replicate 32 (Vector.replicate 64 false)
  keys := Vector.replicate 16 false
  wk := .idle
  faultReg := .clear
  randIn := none
  draws := 0

/-- Why a step stops with no next state. -/
inductive Fault where
  /-- Raised by `step` on a block whose FAULT.cause is not 0: the halted state, which the spec tells a model
  to answer as a fault outcome (40_cycle_dispatch.md R97, 60_exceptions.md R225; log entry 11). Safe: the state
  keeps its value, and no run goes on from it. -/
  | halted (cause : Cause)
  deriving DecidableEq, Repr

/-- Why something the block is asked to do is refused. -/
inductive Refusal where
  /-- Raised only by an arm of `exec` for an instruction that has no meaning yet; no arm does. Safe. -/
  | notModelled (mnemonic : String)
  /-- Raised by the Load transaction, never by a step, for an image of more than 3584 bytes; nothing
  changes (60_exceptions.md R236, D19). Safe: it is the spec's own refusal. -/
  | imageTooLong (length : Nat)
  deriving DecidableEq, Repr

end Sys2Proof.Machine
end

