-- ==== Sys2Proof/Machine/Ops.lean ====
section
/-! DEFINITION. The named operations over memory, registers, the stack and the timers, raising a fault and
taking it (20_memory.md, 60_exceptions.md section 1), the fetch and the tick (40_cycle_dispatch.md). -/

namespace Sys2Proof.Machine

/-- What a rule raises: a cause of 60_exceptions.md R222 and its FAULT.info (R223). -/
structure Raise where
  cause : Cause
  info  : Word
  deriving DecidableEq, Repr

/-- The 3-bit code of a cause (60_exceptions.md R222). -/
def Cause.code : Cause → BitVec 3
  | .noFault => 0
  | .fetchRange => 1
  | .memRange => 2
  | .stackOverflow => 3
  | .stackUnderflow => 4
  | .keyRange => 5
  | .pixelRange => 6

/-! ### Memory -/

/-- The number of bytes of memory (20_memory.md R50). -/
def memSize : Nat := 4096

/-- What an address that no cell lists reads as: the reset contents, FONT_DATA from FONT_BASE on and 0
elsewhere (10_state.md R30, R37; log entry 15). -/
def memDefault (a : Nat) : Byte :=
  if hw.fontBase ≤ a then hw.fontData.getD (a - hw.fontBase) 0 else 0

/-- The byte at an address (20_memory.md R58: the last value written to it). -/
def Memory.read : Memory → Nat → Byte
  | [], a => memDefault a
  | (k, b) :: rest, a => if k = a then b else Memory.read rest a

/-- A memory without its cell for `a`. -/
def Memory.erase (m : Memory) (a : Nat) : Memory := m.filter (fun c => c.1 != a)

/-- Puts a cell before the first cell of a higher address. -/
def Memory.insert : Memory → Nat → Byte → Memory
  | [], a, b => [(a, b)]
  | c :: rest, a, b => if a < c.1 then (a, b) :: c :: rest else c :: Memory.insert rest a b

/-- The memory with byte `b` at `a`, in canonical form if it was: a byte equal to the reset contents is not
listed. -/
def Memory.write (m : Memory) (a : Nat) (b : Byte) : Memory :=
  if b = memDefault a then m.erase a else (m.erase a).insert a b

/-- The canonical form: addresses strictly rising and inside memory, no cell equal to what its address
reads as unlisted. -/
abbrev Memory.wf (m : Memory) : Prop :=
  m.Pairwise (fun c d => c.1 < d.1) ∧ ∀ c ∈ m, c.1 < memSize ∧ c.2 ≠ memDefault c.1

/-- The location a data address names under a `RANGE_POLICY` (20_memory.md R52, 00_scope.md R11): an address of
4096 or more raises MemRange, whose info is the address modulo 65536 (R223), or wraps. -/
def locate (p : RangePolicy) (a : Nat) : Except Raise Nat :=
  if a < memSize then .ok a
  else match p with
    | .fault => .error ⟨.memRange, BitVec.ofNat 16 a⟩
    | .wrap => .ok (a % memSize)

/-- `MemRead(a, 1)` (00_scope.md R11). -/
def memRead (p : RangePolicy) (m : Memory) (a : Nat) : Except Raise Byte :=
  match locate p a with
  | .ok k => .ok (m.read k)
  | .error e => .error e

/-- `MemWrite(a, 1, b)` (00_scope.md R11). -/
def memWrite (p : RangePolicy) (m : Memory) (a : Nat) (b : Byte) : Except Raise Memory :=
  match locate p a with
  | .ok k => .ok (m.write k b)
  | .error e => .error e

/-- Writes bytes at `a`, `a + 1`, ... in ascending order (20_memory.md R56), stopping at the first raise. -/
def storeBytes (p : RangePolicy) (a : Nat) : List Byte → Memory → Except Raise Memory
  | [], m => .ok m
  | b :: bs, m =>
    match memWrite p m a b with
    | .ok m' => storeBytes p (a + 1) bs m'
    | .error e => .error e

/-- Reads `n` bytes at `a`, `a + 1`, ... in ascending order (20_memory.md R56), stopping at the first raise. -/
def loadBytes (p : RangePolicy) (m : Memory) (a : Nat) : Nat → Except Raise (List Byte)
  | 0 => .ok []
  | n + 1 =>
    match memRead p m a with
    | .ok b =>
      match loadBytes p m (a + 1) n with
      | .ok bs => .ok (b :: bs)
      | .error e => .error e
    | .error e => .error e

/-! ### General registers -/

/-- The index of VF (10_state.md R21). -/
def vf : Nibble := 0xF

/-- A 4-bit field is the index of one of the 16 registers. -/
theorem nibble_lt (r : Nibble) : r.toNat < 16 := r.isLt

/-- `V[r]` (10_state.md R20). -/
def State.reg (s : State) (r : Nibble) : Byte := s.v[r.toNat]'(nibble_lt r)

/-- `V[r] <- b` (10_state.md R20). -/
def State.setReg (s : State) (r : Nibble) (b : Byte) : State :=
  { s with v := s.v.set r.toNat b (nibble_lt r) }

/-- `V[k] <- b`, `V[k + 1] <- b'`, ... for the bytes of a list; index 15 is the last (45_index_memory.md R205). -/
def setRegs (k : Nat) : List Byte → State → State
  | [], s => s
  | b :: bs, s => setRegs (k + 1) bs (s.setReg (BitVec.ofNat 4 k) b)

/-- `V[0]` to `V[n - 1]`, in ascending order (45_index_memory.md R204). -/
def State.firstRegs (s : State) (n : Nat) : List Byte := s.v.toList.take n

/-! ### The other single fields -/

/-- `I <- w` (10_state.md R22). -/
def State.setIndex (s : State) (w : Word) : State := { s with i := w }

/-- `DT <- b` (10_state.md R27). -/
def State.setDt (s : State) (b : Byte) : State := { s with dt := b }

/-- `ST <- b` (10_state.md R28). -/
def State.setSt (s : State) (b : Byte) : State := { s with st := b }

/-- Memory after an instruction's writes (20_memory.md R59). -/
def State.setMem (s : State) (m : Memory) : State := { s with mem := m }

/-- The framebuffer after CLS or DRW (10_state.md R31). -/
def State.setFb (s : State) (fb : Framebuffer) : State := { s with fb := fb }

/-- `wk <- k` (10_state.md R33). -/
def State.setWk (s : State) (k : WaitKey) : State := { s with wk := k }

/-- The key flags after SetKeys (60_exceptions.md R234). -/
def State.setKeys (s : State) (keys : Vector Bool 16) : State := { s with keys := keys }

/-! ### The program counter and the stack -/

/-- `pc <- (pc + 2) mod 65536`: the advance of 40_cycle_dispatch.md R92, and a skip (41_control_flow.md R110). -/
def State.advance (s : State) : State := { s with pc := s.pc + 2 }

/-- `pc <- (pc - 2) mod 65536`: undoes the cycle's advance (44_keypad_timers.md R184). -/
def State.rewind (s : State) : State := { s with pc := s.pc - 2 }

/-- `pc <- target` (00_scope.md R11). -/
def State.jump (s : State) (target : Word) : State := { s with pc := target }

/-- A skip, taken when its condition holds (41_control_flow.md R110). -/
def State.skipIf (s : State) (c : Bool) : State := if c then s.advance else s

/-- The slot a stack index names, `sp mod 16` (41_control_flow.md R111, R113). -/
def slot (sp : Byte) : Fin 16 := Fin.ofNat 16 sp.toNat

/-- RET's pop: read `stack[sp]`, then decrement sp (41_control_flow.md R111). Under `fault` an empty stack
raises StackUnderflow, whose info is the sp before (60_exceptions.md R222, R223). -/
def popPc (p : RangePolicy) (s : State) : Except Raise State :=
  if p = .fault ∧ s.sp = 0 then .error ⟨.stackUnderflow, s.sp.setWidth 16⟩
  else .ok { s with pc := s.stack[slot s.sp], sp := s.sp - 1 }

/-- CALL's push and jump: increment sp, write the advanced pc to `stack[sp]`, jump (41_control_flow.md R113).
Under `fault` a push past slot 15 raises StackOverflow, whose info is the sp before (60_exceptions.md R222, R223). -/
def pushPc (p : RangePolicy) (target : Word) (s : State) : Except Raise State :=
  if p = .fault ∧ 16 ≤ s.sp.toNat + 1 then .error ⟨.stackOverflow, s.sp.setWidth 16⟩
  else .ok { s with sp := s.sp + 1, stack := s.stack.set (slot (s.sp + 1)) s.pc, pc := target }

/-! ### Keys and the random byte -/

/-- `KeyRead(v)` (44_keypad_timers.md R180): an index of 16 or more raises KeyRange, whose info is the value
(60_exceptions.md R223), or is taken modulo 16. -/
def keyRead (p : RangePolicy) (s : State) (v : Byte) : Except Raise Bool :=
  if v.toNat < 16 ∨ p = .wrap then .ok s.keys[Fin.ofNat 16 v.toNat]
  else .error ⟨.keyRange, v.setWidth 16⟩

/-- `min { k | key[k] }`, if a key is pressed (44_keypad_timers.md R184, D10). -/
def lowestKey (keys : Vector Bool 16) : Option (Fin 16) :=
  (List.finRange 16).find? (fun k => keys[k])

/-- The random byte of this cycle (10_state.md R35, 40_cycle_dispatch.md R99): the one the host has supplied, else
the free value. -/
def State.rand8 (s : State) : Byte := s.randIn.getD (Config.rand8 s.draws)

/-- Consumes the random byte of this cycle (40_cycle_dispatch.md R99). -/
def State.drawn (s : State) : State := { s with randIn := none, draws := s.draws + 1 }

/-! ### Raising and taking a fault -/

/-- FAULT ENTRY (60_exceptions.md R221): the state of the start of the cycle, with FAULT recording the cause, that
state's pc, the instruction word and the info. There is no vector and no other effect; R225 gives no return. -/
def State.takeFault (s0 : State) (instr : Word) (e : Raise) : State :=
  { s0 with faultReg := ⟨e.cause, s0.pc, instr, e.info⟩ }

/-- A raise in the execute phase of instruction `i` (00_scope.md R12): every effect of the cycle is discarded, the
pc advance with them, and the fault is taken with the fetched word, which is `i`'s. -/
def State.raiseIn (s : State) (i : Instr) (e : Raise) : State := s.rewind.takeFault (encode i) e

/-- What the execute phase of `i` answers on `s`: the state its rule gives, or the fault it raises taken. -/
def complete (i : Instr) (s : State) : Except Raise State → Host.Outcome State Fault Refusal
  | .ok t => .next t
  | .error e => .next (s.raiseIn i e)

/-! ### Fetch and tick -/

/-- `Fetch16(pc)` (20_memory.md R54, 40_cycle_dispatch.md R91): two bytes, big-endian; under `fault` a pc of
0xFFF or more raises FetchRange, whose info is the pc. -/
def fetch16 (p : RangePolicy) (s : State) : Except Raise Word :=
  if p = .fault ∧ memSize ≤ s.pc.toNat + 1 then .error ⟨.fetchRange, s.pc⟩
  else .ok (wordOfBytes (s.mem.read (s.pc.toNat % memSize)) (s.mem.read ((s.pc.toNat + 1) % memSize)))

/-- One timer's countdown, with the floor at 0 (40_cycle_dispatch.md R94). -/
def countDown (t : Byte) : Byte := if t = 0 then 0 else t - 1

/-- `Tick()` (40_cycle_dispatch.md R94): the two timers, each on its own. -/
def tick (s : State) : State := { s with dt := countDown s.dt, st := countDown s.st }

/-- The end of a cycle after its execute phase (40_cycle_dispatch.md R90): the tick, which a fault pre-empts
(60_exceptions.md R221, R224). -/
def endCycle : Host.Outcome State Fault Refusal → Host.Outcome State Fault Refusal
  | .next t => .next (if t.faultReg.cause = .noFault then tick t else t)
  | .fault r => .fault r
  | .refused r => .refused r

end Sys2Proof.Machine
end

