-- ==== Sys2Proof/Machine/Flags.lean ====
section
/-! DEFINITION. Every flag the block computes (42_alu.md R130, 10_state.md R21), as booleans, and the order
of the flag write and the destination write (00_scope.md R12, D6). -/

namespace Sys2Proof.Machine

/-- The carry of ADD Vx, Vy: the exact sum exceeds 255 (42_alu.md R137). -/
def carryOut (a b : Byte) : Bool := 255 < a.toNat + b.toNat

/-- The not-borrow of a subtraction: minuend at least subtrahend (42_alu.md R138, R140). -/
def noBorrow (a b : Byte) : Bool := b.toNat ≤ a.toNat

/-- The bit a right shift moves out (42_alu.md R139). -/
def lowBit (a : Byte) : Bool := a.getLsbD 0

/-- The bit a left shift moves out (42_alu.md R141). -/
def highBit (a : Byte) : Bool := a.getLsbD 7

/-- A flag as VF holds it: 1 or 0. -/
def flagByte (f : Bool) : Byte := if f then 1 else 0

/-- The flag first, the destination last (00_scope.md R12, D6): with x = 15 VF holds the result. -/
def State.setFlagThenReg (s : State) (f : Bool) (x : Nibble) (b : Byte) : State :=
  (s.setReg vf (flagByte f)).setReg x b

end Sys2Proof.Machine
end

