-- ==== Sys2Proof/Machine/Operands.lean ====
section
/-! DEFINITION. The operand forms (30_encoding.md R73): register operands, immediates and addresses that are
zero-extended, the shifts' source register, the font address, the decimal digits. -/

namespace Sys2Proof.Machine

/-- `zext_16(nnn)` (30_encoding.md R73). -/
def addrOperand (nnn : Addr12) : Word := nnn.setWidth 16

/-- `nnn + V[0]`, not reduced to 12 bits (41_control_flow.md R118). -/
def offsetTarget (s : State) (nnn : Addr12) : Word := addrOperand nnn + (s.reg 0).setWidth 16

/-- The source of SHR and SHL under a `SHIFT_SRC` (42_alu.md R139, R141). -/
def shiftOperand (src : ShiftSrc) (s : State) (x y : Nibble) : Byte :=
  match src with
  | .y => s.reg y
  | .x => s.reg x

/-- `FONT_BASE + 5 * (v & 0xF)` (45_index_memory.md R202, D22). -/
def glyphAddress (cfg : Config) (v : Byte) : Word := BitVec.ofNat 16 (cfg.fontBase + 5 * (v &&& 0x0F).toNat)

/-- The three decimal digits of a byte, hundreds first (45_index_memory.md R203). -/
def decimalDigits (v : Byte) : List Byte :=
  [BitVec.ofNat 8 (v.toNat / 100), BitVec.ofNat 8 (v.toNat / 10 % 10), BitVec.ofNat 8 (v.toNat % 10)]

end Sys2Proof.Machine
end

