-- ==== Sys2Proof/Machine/Alu.lean ====
section
/-! DEFINITION. Register loads, arithmetic, logic, shifts and random (42_alu.md). None of these raises. -/

namespace Sys2Proof.Machine

/-- LD Vx, kk (R131). -/
def execLdImm (x : Nibble) (kk : Byte) (s : State) : Host.Outcome State Fault Refusal :=
  .next (s.setReg x kk)

/-- ADD Vx, kk (R132): no flag. -/
def execAddImm (x : Nibble) (kk : Byte) (s : State) : Host.Outcome State Fault Refusal :=
  .next (s.setReg x (s.reg x + kk))

/-- LD Vx, Vy (R133). -/
def execLdReg (x y : Nibble) (s : State) : Host.Outcome State Fault Refusal :=
  .next (s.setReg x (s.reg y))

/-- OR Vx, Vy (R134). -/
def execOrReg (x y : Nibble) (s : State) : Host.Outcome State Fault Refusal :=
  .next (s.setReg x (s.reg x ||| s.reg y))

/-- AND Vx, Vy (R135). -/
def execAndReg (x y : Nibble) (s : State) : Host.Outcome State Fault Refusal :=
  .next (s.setReg x (s.reg x &&& s.reg y))

/-- XOR Vx, Vy (R136). -/
def execXorReg (x y : Nibble) (s : State) : Host.Outcome State Fault Refusal :=
  .next (s.setReg x (s.reg x ^^^ s.reg y))

/-- ADD Vx, Vy (R137). -/
def execAddReg (x y : Nibble) (s : State) : Host.Outcome State Fault Refusal :=
  .next (s.setFlagThenReg (carryOut (s.reg x) (s.reg y)) x (s.reg x + s.reg y))

/-- SUB Vx, Vy (R138). -/
def execSub (x y : Nibble) (s : State) : Host.Outcome State Fault Refusal :=
  .next (s.setFlagThenReg (noBorrow (s.reg x) (s.reg y)) x (s.reg x - s.reg y))

/-- SUBN Vx, Vy (R140). -/
def execSubn (x y : Nibble) (s : State) : Host.Outcome State Fault Refusal :=
  .next (s.setFlagThenReg (noBorrow (s.reg y) (s.reg x)) x (s.reg y - s.reg x))

/-- SHR Vx, Vy under a `SHIFT_SRC` (R139). -/
def shiftRightWith (src : ShiftSrc) (x y : Nibble) (s : State) : State :=
  s.setFlagThenReg (lowBit (shiftOperand src s x y)) x (shiftOperand src s x y >>> 1)

/-- SHR Vx, Vy (R139). -/
def execShr (x y : Nibble) (s : State) : Host.Outcome State Fault Refusal :=
  .next (shiftRightWith hw.shiftSrc x y s)

/-- SHL Vx, Vy under a `SHIFT_SRC` (R141). -/
def shiftLeftWith (src : ShiftSrc) (x y : Nibble) (s : State) : State :=
  s.setFlagThenReg (highBit (shiftOperand src s x y)) x (shiftOperand src s x y <<< 1)

/-- SHL Vx, Vy (R141). -/
def execShl (x y : Nibble) (s : State) : Host.Outcome State Fault Refusal :=
  .next (shiftLeftWith hw.shiftSrc x y s)

/-- RND Vx, kk (R142): the cycle's random byte, masked; the byte is consumed (40_cycle_dispatch.md R99). -/
def execRnd (x : Nibble) (kk : Byte) (s : State) : Host.Outcome State Fault Refusal :=
  .next (s.drawn.setReg x (s.rand8 &&& kk))

end Sys2Proof.Machine
end

