-- ==== Sys2Proof/Machine/ControlFlow.lean ====
section
/-! DEFINITION. Control transfer and skips (41_control_flow.md). In the execute phase pc already holds the
address after the instruction (40_cycle_dispatch.md R92). -/

namespace Sys2Proof.Machine

/-- RET (R111). -/
def execRet (ign : Byte) (s : State) : Host.Outcome State Fault Refusal :=
  complete (.ret ign) s (popPc hw.rangePolicy s)

/-- JP nnn (R112). -/
def execJp (nnn : Addr12) (s : State) : Host.Outcome State Fault Refusal :=
  .next (s.jump (addrOperand nnn))

/-- CALL nnn (R113). -/
def execCall (nnn : Addr12) (s : State) : Host.Outcome State Fault Refusal :=
  complete (.call nnn) s (pushPc hw.rangePolicy (addrOperand nnn) s)

/-- SE Vx, kk (R114). -/
def execSeImm (x : Nibble) (kk : Byte) (s : State) : Host.Outcome State Fault Refusal :=
  .next (s.skipIf (s.reg x == kk))

/-- SNE Vx, kk (R115). -/
def execSneImm (x : Nibble) (kk : Byte) (s : State) : Host.Outcome State Fault Refusal :=
  .next (s.skipIf (s.reg x != kk))

/-- SE Vx, Vy (R116). -/
def execSeReg (x y : Nibble) (s : State) : Host.Outcome State Fault Refusal :=
  .next (s.skipIf (s.reg x == s.reg y))

/-- SNE Vx, Vy (R117). -/
def execSneReg (x y : Nibble) (s : State) : Host.Outcome State Fault Refusal :=
  .next (s.skipIf (s.reg x != s.reg y))

/-- JP V0, nnn (R118). -/
def execJpV0 (nnn : Addr12) (s : State) : Host.Outcome State Fault Refusal :=
  .next (s.jump (offsetTarget s nnn))

end Sys2Proof.Machine
end

