-- ==== Sys2Proof/Machine/Display.lean ====
section
/-! DEFINITION. The framebuffer XOR-collision unit: CLS and DRW (43_display.md). -/

namespace Sys2Proof.Machine

/-- `fb[y][x]` (10_state.md R31). -/
def Framebuffer.pixel (fb : Framebuffer) (x : Fin 64) (y : Fin 32) : Bool := fb[y][x]

/-- `fb[y][x] <- fb[y][x] ^ 1` (43_display.md R162). -/
def Framebuffer.toggle (fb : Framebuffer) (x : Fin 64) (y : Fin 32) : Framebuffer :=
  fb.set y (fb[y].set x (!fb[y][x]))

/-- Every pixel off (43_display.md R161). -/
def Framebuffer.blank : Framebuffer := Vector.replicate 32 (Vector.replicate 64 false)

/-- What a draw works on: the framebuffer, and whether some toggle met a pixel that was on (R163). -/
structure Canvas where
  fb  : Framebuffer
  hit : Bool
  deriving DecidableEq, Repr

/-- `Plot(px, py)` (R162): note a collision, then toggle. -/
def plot (x : Fin 64) (y : Fin 32) (d : Canvas) : Canvas :=
  { fb := d.fb.toggle x y, hit := d.hit || d.fb.pixel x y }

/-- One sprite bit at the target (tx, ty), which is not wrapped per pixel (R162, R164). A clear bit does
nothing; a set bit plots on screen, and off screen does what `EDGE_POLICY` says. PixelRange's info is
`tx * 256 + ty` (60_exceptions.md R223). -/
def drawBit (edge : EdgePolicy) (tx ty : Nat) (bit : Bool) (d : Canvas) : Except Raise Canvas :=
  if bit then
    if tx < 64 ∧ ty < 32 then .ok (plot (Fin.ofNat 64 tx) (Fin.ofNat 32 ty) d)
    else match edge with
      | .clip => .ok d
      | .wrap => .ok (plot (Fin.ofNat 64 tx) (Fin.ofNat 32 ty) d)
      | .fault => .error ⟨.pixelRange, BitVec.ofNat 16 (tx * 256 + ty)⟩
  else .ok d

/-- Bit 7 - c of a sprite row: column 0 is the most significant bit (R162). -/
def spriteBit (b : Byte) (c : Nat) : Bool := b.getLsbD (7 - c)

/-- The columns of one sprite row, in the order of the list (R162, R224: left to right). -/
def drawCols (edge : EdgePolicy) (ax ty : Nat) (b : Byte) : List Nat → Canvas → Except Raise Canvas
  | [], d => .ok d
  | c :: cs, d =>
    match drawBit edge (ax + c) ty (spriteBit b c) d with
    | .ok d' => drawCols edge ax ty b cs d'
    | .error e => .error e

/-- The rows of a sprite, in the order of the list: each row's byte is read before its columns are drawn
(R162, R224). -/
def drawRows (cfg : Config) (m : Memory) (base ax ay : Nat) : List Nat → Canvas → Except Raise Canvas
  | [], d => .ok d
  | r :: rs, d =>
    match memRead cfg.rangePolicy m (base + r) with
    | .ok b =>
      match drawCols cfg.edgePolicy ax (ay + r) b (List.range 8) d with
      | .ok d' => drawRows cfg m base ax ay rs d'
      | .error e => .error e
    | .error e => .error e

/-- DRW's effect under given parameters (R162): the anchor is wrapped once and read before VF is cleared, rows
and columns ascend, VF becomes the collision. -/
def drawSprite (cfg : Config) (x y n : Nibble) (s : State) : Except Raise State :=
  match drawRows cfg s.mem s.i.toNat ((s.reg x).toNat % 64) ((s.reg y).toNat % 32) (List.range n.toNat)
      ⟨s.fb, false⟩ with
  | .ok d => .ok ((s.setReg vf (flagByte d.hit)).setFb d.fb)
  | .error e => .error e

/-- CLS (R161). -/
def execCls (s : State) : Host.Outcome State Fault Refusal := .next (s.setFb .blank)

/-- DRW Vx, Vy, n (R162). -/
def execDrw (x y n : Nibble) (s : State) : Host.Outcome State Fault Refusal :=
  complete (.drw x y n) s (drawSprite hw x y n s)

end Sys2Proof.Machine
end

