-- ==== Sys2Proof/Machine/IndexMemory.lean ====
section
/-! DEFINITION. Index register and memory transfers (45_index_memory.md). No instruction here writes VF as a
flag, and no transfer changes I (D8). -/

namespace Sys2Proof.Machine

/-- Stores bytes from `mem[I]` upward (R203, R204). -/
def storeAtIndex (p : RangePolicy) (bs : List Byte) (s : State) : Except Raise State :=
  match storeBytes p s.i.toNat bs s.mem with
  | .ok m => .ok (s.setMem m)
  | .error e => .error e

/-- Loads `V[0]` to `V[n - 1]` from `mem[I]` upward (R205). -/
def loadFromIndex (p : RangePolicy) (n : Nat) (s : State) : Except Raise State :=
  match loadBytes p s.mem s.i.toNat n with
  | .ok bs => .ok (setRegs 0 bs s)
  | .error e => .error e

/-- LD I, nnn (R200). -/
def execLdI (nnn : Addr12) (s : State) : Host.Outcome State Fault Refusal :=
  .next (s.setIndex (addrOperand nnn))

/-- ADD I, Vx (R201): wraps modulo 65536, no flag. -/
def execAddI (x : Nibble) (s : State) : Host.Outcome State Fault Refusal :=
  .next (s.setIndex (s.i + (s.reg x).setWidth 16))

/-- LD F, Vx (R202). -/
def execLdF (x : Nibble) (s : State) : Host.Outcome State Fault Refusal :=
  .next (s.setIndex (glyphAddress hw (s.reg x)))

/-- LD B, Vx (R203). -/
def execLdB (x : Nibble) (s : State) : Host.Outcome State Fault Refusal :=
  complete (.ldB x) s (storeAtIndex hw.rangePolicy (decimalDigits (s.reg x)) s)

/-- LD [I], Vx (R204): the x + 1 registers V[0] to V[x]. -/
def execStoreRegs (x : Nibble) (s : State) : Host.Outcome State Fault Refusal :=
  complete (.storeRegs x) s (storeAtIndex hw.rangePolicy (s.firstRegs (x.toNat + 1)) s)

/-- LD Vx, [I] (R205): the x + 1 registers V[0] to V[x]. -/
def execLoadRegs (x : Nibble) (s : State) : Host.Outcome State Fault Refusal :=
  complete (.loadRegs x) s (loadFromIndex hw.rangePolicy (x.toNat + 1) s)

end Sys2Proof.Machine
end

