-- ==== Sys2Proof/Machine/Keypad.lean ====
section
/-! DEFINITION. Keypad and timer instructions (44_keypad_timers.md). -/

namespace Sys2Proof.Machine

/-- A skip on a key test, which may raise KeyRange (R181, R182): skip when the key's flag is `want`. -/
def skipOnKey (p : RangePolicy) (x : Nibble) (want : Bool) (s : State) : Except Raise State :=
  match keyRead p s (s.reg x) with
  | .ok pressed => .ok (s.skipIf (pressed == want))
  | .error e => .error e

/-- SKP Vx (R181). -/
def execSkp (x ign : Nibble) (s : State) : Host.Outcome State Fault Refusal :=
  complete (.skp x ign) s (skipOnKey hw.rangePolicy x true s)

/-- SKNP Vx (R182). -/
def execSknp (x ign : Nibble) (s : State) : Host.Outcome State Fault Refusal :=
  complete (.sknp x ign) s (skipOnKey hw.rangePolicy x false s)

/-- LD Vx, DT (R183): DT before this cycle's tick. -/
def execLdVxDT (x : Nibble) (s : State) : Host.Outcome State Fault Refusal :=
  .next (s.setReg x s.dt)

/-- The two-state machine of LD Vx, K (R184): latch the lowest pressed key, wait for its release, then write
its index. Re-execution takes the cycle's pc advance back. -/
def waitForKey (x : Nibble) (s : State) : State :=
  match s.wk with
  | .idle =>
    match lowestKey s.keys with
    | some k => s.rewind.setWk (.keyLatched k)
    | none => s.rewind
  | .keyLatched k =>
    if s.keys[k] then s.rewind
    else (s.setReg x (BitVec.ofNat 8 k.val)).setWk .idle

/-- LD Vx, K (R184). -/
def execLdVxK (x : Nibble) (s : State) : Host.Outcome State Fault Refusal := .next (waitForKey x s)

/-- LD DT, Vx (R185). -/
def execLdDTVx (x : Nibble) (s : State) : Host.Outcome State Fault Refusal :=
  .next (s.setDt (s.reg x))

/-- LD ST, Vx (R186). -/
def execLdSTVx (x : Nibble) (s : State) : Host.Outcome State Fault Refusal :=
  .next (s.setSt (s.reg x))

end Sys2Proof.Machine
end

