-- ==== Sys2Proof/Machine/NoOps.lean ====
section
/-! DEFINITION. The no-op of unmapped secondary keys (40_cycle_dispatch.md R95, 30_encoding.md R77), for each of
the four families that have one. -/

namespace Sys2Proof.Machine

/-- `NoOp`: the execute phase changes no state (R95). -/
def noOp (s : State) : State := s

/-- An unmapped word of family 0x0. -/
def execNoop0 (s : State) : Host.Outcome State Fault Refusal := .next (noOp s)

/-- An unmapped word of family 0x8. -/
def execNoop8 (s : State) : Host.Outcome State Fault Refusal := .next (noOp s)

/-- An unmapped word of family 0xE. -/
def execNoopE (s : State) : Host.Outcome State Fault Refusal := .next (noOp s)

/-- An unmapped word of family 0xF. -/
def execNoopF (s : State) : Host.Outcome State Fault Refusal := .next (noOp s)

end Sys2Proof.Machine
end

