-- ==== Sys2Proof/Machine/Cycle.lean ====
section
/-! DEFINITION. One cycle of the block (40_cycle_dispatch.md R90), and placing a word where the next cycle
fetches it. -/

namespace Sys2Proof.Machine

/-- `Cycle()` (R90): fetch, advance, execute, tick. A raise in the fetch is taken with instruction word 0
(60_exceptions.md R221); one in the execute phase is taken there and pre-empts the tick. On a halted block the
cycle changes nothing, and the model answers a fault (R97, 60_exceptions.md R225; log entry 11). -/
def cycle (s : State) : Host.Outcome State Fault Refusal :=
  if s.faultReg.cause = .noFault then
    match fetch16 hw.rangePolicy s with
    | .ok w => endCycle (exec (decodeWord w) s.advance)
    | .error e => .next (s.takeFault 0 e)
  else .fault (.halted s.faultReg.cause)

/-- The state with the low `nbits` bits of `w`, as one instruction word, at pc and pc + 1 (30_encoding.md R71).
It stands for what the Load transaction does before the first Step (70_reset_and_hazards.md R252; log entry 18). -/
def placeWord (s : State) (nbits w : Nat) : State :=
  let word : Word := BitVec.ofNat 16 (w % 2 ^ nbits)
  { s with
    mem := (s.mem.write (s.pc.toNat % memSize) (highByte word)).write ((s.pc.toNat + 1) % memSize)
      (lowByte word) }

end Sys2Proof.Machine
end

