-- ==== Sys2Proof/Machine/Step.lean ====
section
/-! DEFINITION. The step of the machine: one cycle (00_scope.md R2, 40_cycle_dispatch.md R90). -/

namespace Sys2Proof.Machine

/-- One step is one cycle (00_scope.md R2). -/
def step (s : State) : Host.Outcome State Fault Refusal := cycle s

/-- The state with the host's table word where the next step fetches. -/
def State.withFetchWord (s : State) (nbits w : Nat) : State := placeWord s nbits w

end Sys2Proof.Machine
end

