-- ==== Sys2Proof/Machine/Transactions.lean ====
section
/-! DEFINITION. The host interface as transactions between cycles (60_exceptions.md R232-R238): Reset, Load,
SetKeys, Step, and reading the outputs. -/

namespace Sys2Proof.Machine

/-- A host transaction that acts on the block (R232). -/
inductive Transaction where
  | reset
  /-- Load of a program image (R236). -/
  | load (image : List Byte)
  /-- SetKeys: all 16 flags at once (R234). -/
  | setKeys (keys : Vector Bool 16)
  /-- Step, with the random byte it supplies (R233, R235). -/
  | step (rand8 : Byte)
  deriving DecidableEq, Repr

/-- The longest image Load accepts: 0x200 to 0xFFF (20_memory.md R64, R236). -/
def maxImage : Nat := 3584

/-- The address of an image's first byte (70_reset_and_hazards.md R252). -/
def imageBase : Nat := 0x200

/-- Writes the bytes of an image from `a` upward, verbatim (70_reset_and_hazards.md R252). -/
def writeImage (a : Nat) : List Byte → Memory → Memory
  | [], m => m
  | b :: bs, m => writeImage (a + 1) bs (m.write a b)

/-- Load (R236): an image of more than 3584 bytes is refused. -/
def loadImage (image : List Byte) (s : State) : Host.Outcome State Fault Refusal :=
  if image.length ≤ maxImage then .next (s.setMem (writeImage imageBase image s.mem))
  else .refused (.imageTooLong image.length)

/-- Reset (70_reset_and_hazards.md R250): the state of 10_state.md R37 (log entry 9). How many random bytes were drawn
is no state of the block, so a reset does not bring the same draws back (91_not_in_source.md N10; log entry 12). -/
def resetAgain (s : State) : State := { State.reset with draws := s.draws }

/-- Step (R233): one cycle, with the random byte the host supplies for it alone (R235). -/
def hostStep (rand8 : Byte) (s : State) : Host.Outcome State Fault Refusal :=
  match step { s with randIn := some rand8 } with
  | .next t => .next { t with randIn := none }
  | .fault r => .fault r
  | .refused r => .refused r

/-- What a transaction answers. -/
def transact : Transaction → State → Host.Outcome State Fault Refusal
  | .reset, s => .next (resetAgain s)
  | .load image, s => loadImage image s
  | .setKeys keys, s => .next (s.setKeys keys)
  | .step rand8, s => hostStep rand8 s

/-- The state of the block after a transaction: one that is refused or that answers a fault changes nothing
(R233, R236, 40_cycle_dispatch.md R97). -/
def afterTransact (x : Transaction) (s : State) : State :=
  match transact x s with
  | .next t => t
  | .fault _ => s
  | .refused _ => s

/-- Where a session stands, for the host's duties of R236 and R238. -/
inductive Phase where
  /-- After Reset, before a Load or a Step. -/
  | fresh
  /-- After a Load, before a Step. -/
  | loaded
  /-- After the first Step. -/
  | running
  deriving DecidableEq, Repr

/-- The phase after a transaction, or none where the host may not issue it: at most one Load per Reset, and none
after the first Step (R236, R238). A refused Load changes nothing, so it loads no image. -/
def Phase.after : Phase → Transaction → Option Phase
  | _, .reset => some .fresh
  | .fresh, .load image => some (if image.length ≤ maxImage then .loaded else .fresh)
  | .loaded, .load _ => none
  | .running, .load _ => none
  | p, .setKeys _ => some p
  | _, .step _ => some .running

/-- A session: the state after a list of transactions, or none where one breaks the host's duties. -/
def session : Phase → List Transaction → State → Option State
  | _, [], s => some s
  | p, x :: xs, s =>
    match p.after x with
    | some q => session q xs (afterTransact x s)
    | none => none

/-- The 32-bit cell the display adapter sees for a pixel (10_state.md R31, D15). -/
def displayCell (on : Bool) : BitVec 32 := if on then 0xFFFFFFFF else 0x00000000

/-- The 2048 cells of the framebuffer, row-major with row 0 first (10_state.md R31, D14; R237). -/
def State.displayCells (s : State) : List (BitVec 32) :=
  (s.fb.toList.flatMap Vector.toList).map displayCell

/-- ST, as the host reads it (R237, D20). -/
def State.soundOut (s : State) : Byte := s.st

/-- FAULT, as the host reads it: the cause code, pc, instr and info (10_state.md R34, R237). -/
def State.faultOut (s : State) : BitVec 3 × Word × Word × Word :=
  (s.faultReg.cause.code, s.faultReg.pc, s.faultReg.instr, s.faultReg.info)

end Sys2Proof.Machine
end

