-- ==== Sys2Proof/Safety.lean ====
section
/-! DEFINITION. What counts as a safe run, and the words that statements use: the halted state, the machine's
invariant, the parts of the state and what an instruction's rule assigns (00_scope.md R13). -/

namespace Sys2Proof.Machine

/-- The halted state (40_cycle_dispatch.md R97). -/
abbrev State.halted (s : State) : Prop := s.faultReg.cause ≠ .noFault

/-- A normal end of a run: the premise a claim about a program takes (60_exceptions.md R225). -/
abbrev State.normalEnd (s : State) : Prop := s.faultReg.cause = .noFault

/-- Both bytes of the instruction at pc lie inside memory (40_cycle_dispatch.md R91). -/
abbrev State.fetchable (s : State) : Prop := s.pc.toNat + 1 < memSize

/-- The instruction word at pc, big-endian (30_encoding.md R71). -/
def State.wordAt (s : State) : Word := wordOfBytes (s.mem.read s.pc.toNat) (s.mem.read (s.pc.toNat + 1))

/-- One cycle as the host may drive it: any SetKeys and any random byte before the Step
(60_exceptions.md R234, R235, R238). -/
def CycleTo (s t : State) : Prop :=
  ∃ keys r, step { s with keys := keys, randIn := r } = .next t

/-- The invariant of the block under this hardware's parameters: memory in its canonical form; sp in 0 to 15 and
stack[0] as reset left it (10_state.md R26); cause 6 never recorded (60_exceptions.md R222); FAULT clear while no
fault is recorded, and pc at the faulting instruction while one is (60_exceptions.md R221). -/
def State.Inv (s : State) : Prop :=
  s.mem.wf ∧ s.sp.toNat ≤ 15 ∧ s.stack[0] = 0 ∧ s.faultReg.cause ≠ .pixelRange ∧
    (s.normalEnd → s.faultReg = .clear) ∧ (s.halted → s.faultReg.pc = s.pc)

/-- The parts of the state that a rule can assign. -/
inductive Part where
  | reg (r : Nibble)
  | index
  | pc
  | stackSlot (k : Fin 16)
  | sp
  | dt
  | st
  /-- The byte of memory at an address, as `Memory.read` reads it. -/
  | byte (a : Nat)
  | pixel (x : Fin 64) (y : Fin 32)
  | key (k : Fin 16)
  | wk
  | faultReg
  /-- The model's `randIn` and `draws`. -/
  | random
  deriving DecidableEq, Repr

/-- Every part of the state outside `p` is in `t` as in `s` (00_scope.md R13). -/
def OnlyChanges (p : Part → Prop) (s t : State) : Prop :=
  (∀ r, ¬ p (.reg r) → t.reg r = s.reg r) ∧
  (¬ p .index → t.i = s.i) ∧
  (¬ p .pc → t.pc = s.pc) ∧
  (∀ k : Fin 16, ¬ p (.stackSlot k) → t.stack[k] = s.stack[k]) ∧
  (¬ p .sp → t.sp = s.sp) ∧
  (¬ p .dt → t.dt = s.dt) ∧
  (¬ p .st → t.st = s.st) ∧
  (∀ a, ¬ p (.byte a) → t.mem.read a = s.mem.read a) ∧
  (∀ x y, ¬ p (.pixel x y) → t.fb.pixel x y = s.fb.pixel x y) ∧
  (∀ k : Fin 16, ¬ p (.key k) → t.keys[k] = s.keys[k]) ∧
  (¬ p .wk → t.wk = s.wk) ∧
  (¬ p .faultReg → t.faultReg = s.faultReg) ∧
  (¬ p .random → t.randIn = s.randIn ∧ t.draws = s.draws)

/-- Whether a set bit of the sprite that DRW Vx, Vy, n draws on `s` maps to the pixel (px, py), a set bit whose target
is off-screen mapping to none (43_display.md R162, R163, R164, D5): the target set of R165 under `clip`. -/
def spriteCovers (s : State) (x y n : Nibble) (px : Fin 64) (py : Fin 32) : Bool :=
  let ax := (s.reg x).toNat % 64
  let ay := (s.reg y).toNat % 32
  ax ≤ px.val && px.val < ax + 8 && ay ≤ py.val && py.val < ay + n.toNat &&
    (s.mem.read (s.i.toNat + (py.val - ay))).getLsbD (7 - (px.val - ax))

/-- What an instruction's rule assigns in the execute phase when it raises nothing (00_scope.md R13 and the rule of
each instruction). Addresses are those its meaning stores to: I and up. -/
def assigns (s : State) : Instr → Part → Prop
  | .cls _, p => ∃ x y, p = .pixel x y
  | .ret _, p => p = .pc ∨ p = .sp
  | .jp _, p => p = .pc
  | .call _, p => p = .pc ∨ p = .sp ∨ p = .stackSlot (slot (s.sp + 1))
  | .seImm _ _, p => p = .pc
  | .sneImm _ _, p => p = .pc
  | .seReg _ _ _, p => p = .pc
  | .ldImm x _, p => p = .reg x
  | .addImm x _, p => p = .reg x
  | .ldReg x _, p => p = .reg x
  | .orReg x _, p => p = .reg x
  | .andReg x _, p => p = .reg x
  | .xorReg x _, p => p = .reg x
  | .addReg x _, p => p = .reg x ∨ p = .reg vf
  | .sub x _, p => p = .reg x ∨ p = .reg vf
  | .shr x _, p => p = .reg x ∨ p = .reg vf
  | .subn x _, p => p = .reg x ∨ p = .reg vf
  | .shl x _, p => p = .reg x ∨ p = .reg vf
  | .sneReg _ _ _, p => p = .pc
  | .ldI _, p => p = .index
  | .jpV0 _, p => p = .pc
  | .rnd x _, p => p = .reg x ∨ p = .random
  | .drw x y n, p => p = .reg vf ∨ ∃ px py, spriteCovers s x y n px py = true ∧ p = .pixel px py
  | .skp _ _, p => p = .pc
  | .sknp _ _, p => p = .pc
  | .ldVxDT x, p => p = .reg x
  | .ldVxK x, p => p = .reg x ∨ p = .pc ∨ p = .wk
  | .ldDTVx _, p => p = .dt
  | .ldSTVx _, p => p = .st
  | .addI _, p => p = .index
  | .ldF _, p => p = .index
  | .ldB _, p => ∃ k < 3, p = .byte (s.i.toNat + k)
  | .storeRegs x, p => ∃ k ≤ x.toNat, p = .byte (s.i.toNat + k)
  | .loadRegs x, p => ∃ r, r.toNat ≤ x.toNat ∧ p = .reg r
  | .noop0 _, _ => False
  | .noop8 _, _ => False
  | .noopE _, _ => False
  | .noopF _, _ => False

/-- The instructions that write VF as a side effect (10_state.md R21). -/
def writesFlag : Instr → Bool
  | .addReg _ _ | .sub _ _ | .shr _ _ | .subn _ _ | .shl _ _ | .drw _ _ _ => true
  | _ => false

/-- The instructions that take register `r` as an ordinary destination (10_state.md R21). -/
def hasDestination (r : Nibble) : Instr → Bool
  | .ldImm x _ | .addImm x _ | .rnd x _ => x == r
  | .ldReg x _ | .orReg x _ | .andReg x _ | .xorReg x _ => x == r
  | .addReg x _ | .sub x _ | .shr x _ | .subn x _ | .shl x _ => x == r
  | .ldVxDT x | .ldVxK x => x == r
  | .loadRegs x => r.toNat ≤ x.toNat
  | _ => false

/-- How many bytes from I on an instruction accesses (20_memory.md R50): DRW its rows, LD B three digits, the
transfers x + 1 registers. -/
def accessLength : Instr → Nat
  | .drw _ _ n => n.toNat
  | .ldB _ => 3
  | .storeRegs x | .loadRegs x => x.toNat + 1
  | _ => 0

/-- What a fault taken in the execute phase assigns: FAULT, and pc back at the instruction (60_exceptions.md R221). -/
def faultAssigns (p : Part) : Prop := p = .faultReg ∨ p = .pc

end Sys2Proof.Machine
end

