-- ==== Sys2Proof/Certificates/Slice0/Obligations.lean ====
section
/-! DEFINITION. The statements for the provers, from the numbered rules of spec/. OBLIGATIONS.json lists them with
their rules. In the execute phase pc is already advanced, so `exec` is applied to such states
(40_cycle_dispatch.md R90, R92). Where a docstring says SPEC'S DECISION, the clause rests on a decision of
92_eei_decisions.md, which is the spec's own choice for this hardware and not a statement of its source. -/

open Sys2Proof Sys2Proof.Machine

/-! ### Encoding -/

/-- Decoding the word of a well-formed instruction gives it back, with every field at every value
(30_encoding.md sections 1 to 3; SPEC'S DECISION D1 for the opcode values). -/
def Obligations.EncodeThenDecode : Prop :=
  ∀ i : Instr, i.wellFormed = true → decodeWord (encode i) = i

/-- Every 16-bit word is a well-formed instruction and has one encoding: decoding drops no bit
(30_encoding.md section 3, no illegal encoding; SPEC'S DECISION D1). -/
def Obligations.DecodeThenEncode : Prop :=
  ∀ w : Word, (decodeWord w).wellFormed = true ∧ encode (decodeWord w) = w

/-- A word selects an instruction's row exactly when `w & mask == match`, and a word that selects none of the 34
rows is a no-op of its family (30_encoding.md section 3; SPEC'S DECISION D1). -/
def Obligations.OpcodeMapSelectsRow : Prop :=
  ∀ w : Word,
    (decodeWord w).row.selects w = true ∧
    (∀ r ∈ instructionRows, r.selects w = true → (decodeWord w).row = r) ∧
    ((∀ r ∈ instructionRows, r.selects w = false) →
      decodeWord w = .noop0 (fieldNNN w) ∨ decodeWord w = .noop8 (fieldNNN w) ∨
      decodeWord w = .noopE (fieldNNN w) ∨ decodeWord w = .noopF (fieldNNN w))

/-- Words written out from the spec's encodings and examples decode to the instructions they stand for
(30_encoding.md section 3, 95_test_vectors.md; a sanity statement; SPEC'S DECISION D1). -/
def Obligations.SampleWordsDecode : Prop :=
  decodeWord 0x0120 = .cls 0x12 ∧ decodeWord 0x0FFE = .ret 0xFF ∧ decodeWord 0x5AB7 = .seReg 0xA 0xB 0x7 ∧
  decodeWord 0xE30E = .skp 0x3 0x0 ∧ decodeWord 0xE3F1 = .sknp 0x3 0xF ∧ decodeWord 0x8008 = .noop8 0x008 ∧
  decodeWord 0x1ABC = .jp 0xABC ∧ decodeWord 0x812E = .shl 0x1 0x2 ∧ decodeWord 0xD015 = .drw 0x0 0x1 0x5 ∧
  decodeWord 0xF333 = .ldB 0x3 ∧ decodeWord 0xF40A = .ldVxK 0x4

/-- The bits the decoder ignores change nothing an instruction does, where it raises no fault
(30_encoding.md section 3, ignored bits). A fault records the fetched word, so it does record them. -/
def Obligations.IgnoredBitsHaveNoEffect : Prop :=
  ∀ (s : State) (x y : Nibble),
    (∀ a b : Byte, exec (.cls a) s = exec (.cls b) s ∧ (s.sp ≠ 0 → exec (.ret a) s = exec (.ret b) s)) ∧
    (∀ a b : Nibble, exec (.seReg x y a) s = exec (.seReg x y b) s ∧
      exec (.sneReg x y a) s = exec (.sneReg x y b) s ∧
      ((s.reg x).toNat < 16 → exec (.skp x a) s = exec (.skp x b) s ∧ exec (.sknp x a) s = exec (.sknp x b) s))

/-! ### The cycle -/

/-- A STEP RUNS THE DECODED INSTRUCTION: where the word at pc is that of a well-formed instruction `i` and the block is
not halted, the step executes `i` on the state with pc advanced by 2, and then ticks the timers, unless `i` raised
a fault (40_cycle_dispatch.md section 1). -/
def Obligations.StepRunsDecodedInstruction : Prop :=
  ∀ (i : Instr) (s : State), i.wellFormed = true → s.normalEnd → s.fetchable → s.wordAt = encode i →
    step s = (match exec i s.advance with
      | .next t => .next (if t.normalEnd then tick t else t)
      | .fault r => .fault r
      | .refused r => .refused r)

/-- A pc of 0xFFF or more faults in the fetch: FAULT records cause FetchRange, the pc, word 0 and the pc as info, and
nothing else changes (SPEC'S DECISIONS D4, D17; 60_exceptions.md section 1). -/
def Obligations.FetchRangeFaults : Prop :=
  ∀ s : State, s.normalEnd → ¬ s.fetchable →
    step s = .next { s with faultReg := ⟨.fetchRange, s.pc, 0, s.pc⟩ }

/-- The halted state: a step answers a fault outcome, and a Step transaction leaves the block as it is
(SPEC'S DECISIONS D17, D23; the model's reading of 40_cycle_dispatch.md section 3 is log entry 11). -/
def Obligations.HaltedBlockStaysHalted : Prop :=
  ∀ s : State, s.halted →
    step s = .fault (.halted s.faultReg.cause) ∧ ∀ r : Byte, afterTransact (.step r) s = s

/-- TICK: in every cycle that does not fault, each timer ends as what the execute phase left, less one, floored at 0;
so a timer that no write touches counts down whatever the instruction, and a written one is ticked in the same
cycle (40_cycle_dispatch.md R94). -/
def Obligations.TimersTickEveryCycle : Prop :=
  ∀ s t : State, step s = .next t → t.normalEnd →
    ((∀ x, decodeWord s.wordAt ≠ .ldDTVx x) → t.dt.toNat = s.dt.toNat - 1) ∧
    ((∀ x, decodeWord s.wordAt ≠ .ldSTVx x) → t.st.toNat = s.st.toNat - 1) ∧
    (∀ x, decodeWord s.wordAt = .ldDTVx x → t.dt.toNat = (s.reg x).toNat - 1) ∧
    (∀ x, decodeWord s.wordAt = .ldSTVx x → t.st.toNat = (s.reg x).toNat - 1) ∧
    (∀ x, decodeWord s.wordAt = .ldVxDT x → t.reg x = s.dt)

/-- NO-OP: the execute phase of an unmapped word changes no state, and its cycle is the fetch, the advance and the
tick (40_cycle_dispatch.md R95), in each of the four families that have unmapped keys. -/
def Obligations.UnmappedWordsAreNoOps : Prop :=
  ∀ (i : Instr) (arg : Addr12) (s : State),
    (i = .noop0 arg ∨ i = .noop8 arg ∨ i = .noopE arg ∨ i = .noopF arg) →
      exec i s = .next s ∧
      (i.wellFormed = true → s.normalEnd → s.fetchable → s.wordAt = encode i →
        step s = .next (tick { s with pc := s.pc + 2 }))

/-- Every execute phase runs to completion, and every cycle of a block that is not halted answers a next state
(40_cycle_dispatch.md section 3; 60_exceptions.md section 1). -/
def Obligations.EveryCycleCompletes : Prop :=
  (∀ (i : Instr) (s : State), ∃ t, exec i s = .next t) ∧
  (∀ s : State, s.normalEnd → ∃ t, step s = .next t)

/-! ### Faults -/

/-- Faults are precise: a cycle that faults leaves exactly the state of its start, with FAULT recording that state's pc
and the fetched word, or 0 for a fetch fault (60_exceptions.md section 1; SPEC'S DECISION D17). -/
def Obligations.FaultsArePrecise : Prop :=
  ∀ s t : State, step s = .next t → t.halted →
    ∃ cause info, cause ≠ .noFault ∧
      t = { s with faultReg := ⟨cause, s.pc, if s.fetchable then s.wordAt else 0, info⟩ }

/-- Who raises each cause, when, and with which info (60_exceptions.md section 1, the tables of causes and of info;
SPEC'S DECISIONS D4, D5, D17). For MemRange the info is the first out-of-range address, modulo 65536. -/
def Obligations.FaultCausesAndInfo : Prop :=
  ∀ s t : State, step s = .next t →
    match t.faultReg.cause with
    | .noFault => s.fetchable
    | .fetchRange => ¬ s.fetchable ∧ t.faultReg.info = s.pc
    | .memRange => s.fetchable ∧ ∃ k < accessLength (decodeWord s.wordAt),
        memSize ≤ s.i.toNat + k ∧ (∀ j < k, s.i.toNat + j < memSize) ∧
          t.faultReg.info = BitVec.ofNat 16 (s.i.toNat + k)
    | .stackOverflow => s.fetchable ∧ (∃ nnn, decodeWord s.wordAt = .call nnn) ∧ 16 ≤ s.sp.toNat + 1 ∧
        t.faultReg.info = s.sp.setWidth 16
    | .stackUnderflow => s.fetchable ∧ (∃ ign, decodeWord s.wordAt = .ret ign) ∧ s.sp = 0 ∧ t.faultReg.info = 0
    | .keyRange => s.fetchable ∧ ∃ x ign, (decodeWord s.wordAt = .skp x ign ∨ decodeWord s.wordAt = .sknp x ign) ∧
        16 ≤ (s.reg x).toNat ∧ t.faultReg.info = (s.reg x).setWidth 16
    | .pixelRange => False

/-- CALL at sp = 15 and above, and RET on the empty stack, take their faults: nothing changes but FAULT, and pc is back
at the instruction (41_control_flow.md section 2; 60_exceptions.md section 1; SPEC'S DECISIONS D4, D17). -/
def Obligations.StackFaultsAreTaken : Prop :=
  ∀ s : State,
    (∀ nnn, 15 ≤ s.sp.toNat → exec (.call nnn) s = .next { s with
      pc := s.pc - 2
      faultReg := ⟨.stackOverflow, s.pc - 2, encode (.call nnn), s.sp.setWidth 16⟩ }) ∧
    (∀ ign, s.sp = 0 → exec (.ret ign) s = .next { s with
      pc := s.pc - 2
      faultReg := ⟨.stackUnderflow, s.pc - 2, encode (.ret ign), 0⟩ })

/-- SKP and SKNP with V[x] of 16 or more take KeyRange (44_keypad_timers.md section 1; SPEC'S DECISIONS D4, D17). -/
def Obligations.KeyRangeFaultIsTaken : Prop :=
  ∀ (s : State) (x ign : Nibble) (i : Instr), 16 ≤ (s.reg x).toNat → (i = .skp x ign ∨ i = .sknp x ign) →
    exec i s = .next { s with
      pc := s.pc - 2
      faultReg := ⟨.keyRange, s.pc - 2, encode i, (s.reg x).setWidth 16⟩ }

/-- DRW, LD B, LD [I] and LD Vx, [I] that would access memory at 4096 or above take MemRange at the first such address:
no byte, no register and no pixel is written (43_display.md section 2, 45_index_memory.md section 2, 60_exceptions.md
section 1; SPEC'S DECISIONS D4, D17). -/
def Obligations.MemRangeFaultIsTaken : Prop :=
  ∀ (s : State) (i : Instr), 0 < accessLength i → memSize < s.i.toNat + accessLength i →
    exec i s = .next { s with
      pc := s.pc - 2
      faultReg := ⟨.memRange, s.pc - 2, encode i, BitVec.ofNat 16 (max s.i.toNat memSize)⟩ }

/-! ### Invariants and frames -/

/-- Every step keeps the invariant: memory in canonical form; sp in 0 to 15 and stack[0] as reset left it
(10_state.md section 2); cause 6 never recorded, FAULT clear while no fault is recorded and its pc the block's pc
while one is (60_exceptions.md section 1; SPEC'S DECISIONS D4, D5, D17). -/
def Obligations.StepKeepsInvariant : Prop :=
  ∀ s t : State, s.Inv → step s = .next t → t.Inv

/-- Reset meets the invariant (10_state.md section 9; SPEC'S DECISION D11). -/
def Obligations.ResetMeetsInvariant : Prop :=
  State.reset.Inv

/-- Every host transaction keeps the invariant, the refused ones among them (60_exceptions.md section 4;
SPEC'S DECISION D19). -/
def Obligations.TransactionsKeepInvariant : Prop :=
  ∀ (x : Transaction) (s : State), s.Inv → (afterTransact x s).Inv

/-- FRAME: an execute phase changes only what its instruction's rule assigns (`assigns`, in Sys2Proof/Safety.lean), or takes
a fault, which changes FAULT and brings pc back to the instruction (00_scope.md section 5, the frame rule,
SPEC'S DECISION D9; 60_exceptions.md section 1). -/
def Obligations.ExecChangesOnlyItsParts : Prop :=
  ∀ (i : Instr) (s t : State), exec i s = .next t →
    (OnlyChanges (assigns s i) s t) ∨
    (OnlyChanges faultAssigns s t ∧ t.halted ∧ t.pc = s.pc - 2)

/-- Only the named instructions write each part, over a whole cycle: the framebuffer CLS and DRW, memory LD B and LD [I],
I its three writers, the stack CALL, sp CALL and RET, wk LD Vx, K, the keys none, VF the six flag writers and the
instructions that name VF as a destination (10_state.md sections 1, 2, 4, 5 and 6). -/
def Obligations.OnlyNamedInstructionsWrite : Prop :=
  ∀ s t : State, step s = .next t →
    (t.fb ≠ s.fb → (∃ ign, decodeWord s.wordAt = .cls ign) ∨ ∃ x y n, decodeWord s.wordAt = .drw x y n) ∧
    ((∃ a, t.mem.read a ≠ s.mem.read a) →
      ∃ x, decodeWord s.wordAt = .ldB x ∨ decodeWord s.wordAt = .storeRegs x) ∧
    (t.i ≠ s.i → (∃ nnn, decodeWord s.wordAt = .ldI nnn) ∨
      ∃ x, decodeWord s.wordAt = .addI x ∨ decodeWord s.wordAt = .ldF x) ∧
    (t.stack ≠ s.stack → ∃ nnn, decodeWord s.wordAt = .call nnn) ∧
    (t.sp ≠ s.sp → (∃ nnn, decodeWord s.wordAt = .call nnn) ∨ ∃ ign, decodeWord s.wordAt = .ret ign) ∧
    (t.wk ≠ s.wk → ∃ x, decodeWord s.wordAt = .ldVxK x) ∧
    t.keys = s.keys ∧
    (t.reg vf ≠ s.reg vf → writesFlag (decodeWord s.wordAt) = true ∨ hasDestination vf (decodeWord s.wordAt) = true)

/-- No instruction reads ST or FAULT: with another value there, an execute phase does the same and leaves that value, but
for LD ST, Vx, which writes ST, and a fault, which writes FAULT (10_state.md sections 3 and 7). Of the last two cases
the first is that no fault is taken, so that FAULT keeps what it held in both runs, and the second that one is taken,
so that both runs write the same record; from a state that is not halted, `t.halted` tells which. -/
def Obligations.SoundTimerAndFaultAreUnread : Prop :=
  ∀ (i : Instr) (s t : State) (b : Byte) (f : FaultReg), exec i s = .next t →
    (∃ u, exec i { s with st := b } = .next u ∧ { u with st := t.st } = t ∧
      ((∀ x, i ≠ .ldSTVx x) → u.st = b)) ∧
    (∃ u, exec i { s with faultReg := f } = .next u ∧ { u with faultReg := t.faultReg } = t ∧
      ((t.faultReg = s.faultReg ∧ u.faultReg = f) ∨ (t.halted ∧ u.faultReg = t.faultReg)))

/-! ### Control transfer and skips -/

/-- JP nnn: pc becomes nnn, zero-extended; nothing else changes (41_control_flow.md R112). -/
def Obligations.JumpSetsPc : Prop :=
  ∀ (nnn : Addr12) (s : State), ∃ t, exec (.jp nnn) s = .next t ∧ t.pc.toNat = nnn.toNat ∧
    OnlyChanges (· = .pc) s t

/-- JP V0, nnn: pc becomes nnn + V[0], not reduced to 12 bits; nothing else changes (41_control_flow.md R118). -/
def Obligations.JumpWithOffsetAddsV0 : Prop :=
  ∀ (nnn : Addr12) (s : State), ∃ t, exec (.jpV0 nnn) s = .next t ∧
    t.pc.toNat = nnn.toNat + (s.reg 0).toNat ∧ OnlyChanges (· = .pc) s t

/-- CALL nnn below sp = 15: sp is incremented, the advanced pc is written to `stack[sp]`, pc becomes nnn; nothing else
changes (41_control_flow.md section 2). -/
def Obligations.CallPushesAndJumps : Prop :=
  ∀ (nnn : Addr12) (s : State), s.sp.toNat < 15 → ∃ t, exec (.call nnn) s = .next t ∧
    t.sp.toNat = s.sp.toNat + 1 ∧ t.stack[slot t.sp] = s.pc ∧ t.pc.toNat = nnn.toNat ∧
    OnlyChanges (fun p => p = .pc ∨ p = .sp ∨ p = .stackSlot (slot (s.sp + 1))) s t

/-- RET on a stack that is not empty: pc is read from `stack[sp mod 16]`, then sp is decremented; the entry is not
cleared and nothing else changes (41_control_flow.md section 2). -/
def Obligations.ReturnPops : Prop :=
  ∀ (ign : Byte) (s : State), s.sp ≠ 0 → ∃ t, exec (.ret ign) s = .next t ∧
    t.pc = s.stack[slot s.sp] ∧ t.sp.toNat = s.sp.toNat - 1 ∧
    OnlyChanges (fun p => p = .pc ∨ p = .sp) s t

/-- A call that completes, then a return from any state with the call's sp and stack, restores pc to the address right
after the call and sp to its value before it (41_control_flow.md section 2; 95_test_vectors.md E10). -/
def Obligations.CallReturnRoundTrip : Prop :=
  ∀ (nnn : Addr12) (ign : Byte) (s t t' : State), s.sp.toNat < 15 → exec (.call nnn) s = .next t →
    t'.sp = t.sp → t'.stack = t.stack → ∃ u, exec (.ret ign) t' = .next u ∧ u.pc = s.pc ∧ u.sp = s.sp

/-- SE Vx, kk and SNE Vx, kk: pc gains 2 more, modulo 65536, when V[x] equals, or does not equal, kk; nothing else
changes (41_control_flow.md R114, R115). -/
def Obligations.SkipsOnImmediate : Prop :=
  ∀ (x : Nibble) (kk : Byte) (s : State),
    (∃ t, exec (.seImm x kk) s = .next t ∧
      t.pc.toNat = (if (s.reg x).toNat = kk.toNat then (s.pc.toNat + 2) % 65536 else s.pc.toNat) ∧
      OnlyChanges (· = .pc) s t) ∧
    (∃ t, exec (.sneImm x kk) s = .next t ∧
      t.pc.toNat = (if (s.reg x).toNat = kk.toNat then s.pc.toNat else (s.pc.toNat + 2) % 65536) ∧
      OnlyChanges (· = .pc) s t)

/-- SE Vx, Vy and SNE Vx, Vy: pc gains 2 more, modulo 65536, when V[x] and V[y] are, or are not, equal; nothing else
changes; x = y always, or never, skips (41_control_flow.md R116, R117). -/
def Obligations.SkipsOnRegisters : Prop :=
  ∀ (x y ign : Nibble) (s : State),
    (∃ t, exec (.seReg x y ign) s = .next t ∧
      t.pc.toNat = (if (s.reg x).toNat = (s.reg y).toNat then (s.pc.toNat + 2) % 65536 else s.pc.toNat) ∧
      OnlyChanges (· = .pc) s t) ∧
    (∃ t, exec (.sneReg x y ign) s = .next t ∧
      t.pc.toNat = (if (s.reg x).toNat = (s.reg y).toNat then s.pc.toNat else (s.pc.toNat + 2) % 65536) ∧
      OnlyChanges (· = .pc) s t)

/-! ### Loads, arithmetic, logic, shifts, random -/

/-- LD Vx, kk and ADD Vx, kk: V[x] becomes kk, or (V[x] + kk) mod 256; no flag and nothing else changes
(42_alu.md R131, R132). -/
def Obligations.ImmediateLoadAndAdd : Prop :=
  ∀ (x : Nibble) (kk : Byte) (s : State),
    (∃ t, exec (.ldImm x kk) s = .next t ∧ t.reg x = kk ∧ OnlyChanges (· = .reg x) s t) ∧
    (∃ t, exec (.addImm x kk) s = .next t ∧ (t.reg x).toNat = ((s.reg x).toNat + kk.toNat) % 256 ∧
      OnlyChanges (· = .reg x) s t)

/-- LD Vx, Vy: V[x] becomes V[y]; no flag and nothing else changes (42_alu.md section 3; the direction is marked
general knowledge there). -/
def Obligations.RegisterCopy : Prop :=
  ∀ (x y : Nibble) (s : State), ∃ t, exec (.ldReg x y) s = .next t ∧ t.reg x = s.reg y ∧
    OnlyChanges (· = .reg x) s t

/-- OR, AND and XOR: each bit of V[x] becomes the operation on that bit of V[x] and of V[y]; no flag and nothing else
changes (42_alu.md R134, R135, R136). -/
def Obligations.RegisterLogic : Prop :=
  ∀ (x y : Nibble) (s : State),
    (∃ t, exec (.orReg x y) s = .next t ∧
      (∀ b, (t.reg x).getLsbD b = ((s.reg x).getLsbD b || (s.reg y).getLsbD b)) ∧ OnlyChanges (· = .reg x) s t) ∧
    (∃ t, exec (.andReg x y) s = .next t ∧
      (∀ b, (t.reg x).getLsbD b = ((s.reg x).getLsbD b && (s.reg y).getLsbD b)) ∧ OnlyChanges (· = .reg x) s t) ∧
    (∃ t, exec (.xorReg x y) s = .next t ∧
      (∀ b, (t.reg x).getLsbD b = ((s.reg x).getLsbD b ^^ (s.reg y).getLsbD b)) ∧ OnlyChanges (· = .reg x) s t)

/-- ADD Vx, Vy: V[x] becomes the exact sum modulo 256 and VF 1 when the exact sum exceeds 255, else 0; with x = 15 VF
holds the sum; nothing else changes (42_alu.md section 4; SPEC'S DECISION D6 for x = 15). -/
def Obligations.AddSetsCarry : Prop :=
  ∀ (x y : Nibble) (s : State), ∃ t, exec (.addReg x y) s = .next t ∧
    (t.reg x).toNat = ((s.reg x).toNat + (s.reg y).toNat) % 256 ∧
    (x ≠ vf → t.reg vf = if (s.reg x).toNat + (s.reg y).toNat > 255 then 1 else 0) ∧
    OnlyChanges (fun p => p = .reg x ∨ p = .reg vf) s t

/-- SUB and SUBN: V[x] becomes V[x] - V[y], or V[y] - V[x], modulo 256, and VF 1 when the minuend is at least the
subtrahend, else 0; with x = 15 VF holds the difference; nothing else changes (42_alu.md section 4;
SPEC'S DECISION D6 for x = 15). -/
def Obligations.SubtractSetsNotBorrow : Prop :=
  ∀ (x y : Nibble) (s : State),
    (∃ t, exec (.sub x y) s = .next t ∧
      ((t.reg x).toNat : Int) = ((s.reg x).toNat - (s.reg y).toNat : Int) % 256 ∧
      (x ≠ vf → t.reg vf = if (s.reg x).toNat ≥ (s.reg y).toNat then 1 else 0) ∧
      OnlyChanges (fun p => p = .reg x ∨ p = .reg vf) s t) ∧
    (∃ t, exec (.subn x y) s = .next t ∧
      ((t.reg x).toNat : Int) = ((s.reg y).toNat - (s.reg x).toNat : Int) % 256 ∧
      (x ≠ vf → t.reg vf = if (s.reg y).toNat ≥ (s.reg x).toNat then 1 else 0) ∧
      OnlyChanges (fun p => p = .reg x ∨ p = .reg vf) s t)

/-- SHR and SHL: V[x] becomes V[y] shifted by one bit, and VF the bit shifted out; with x = 15 VF holds the result; nothing
else changes (42_alu.md section 4; SPEC'S DECISIONS D7 for the source V[y], D6 for x = 15). -/
def Obligations.ShiftsSetBitShiftedOut : Prop :=
  ∀ (x y : Nibble) (s : State),
    (∃ t, exec (.shr x y) s = .next t ∧ (t.reg x).toNat = (s.reg y).toNat / 2 ∧
      (x ≠ vf → (t.reg vf).toNat = (s.reg y).toNat % 2) ∧
      OnlyChanges (fun p => p = .reg x ∨ p = .reg vf) s t) ∧
    (∃ t, exec (.shl x y) s = .next t ∧ (t.reg x).toNat = (s.reg y).toNat * 2 % 256 ∧
      (x ≠ vf → (t.reg vf).toNat = (s.reg y).toNat / 128) ∧
      OnlyChanges (fun p => p = .reg x ∨ p = .reg vf) s t)

/-- RND: for every byte the host may supply, V[x] becomes that byte AND kk, and the byte is consumed; and whatever the
draw, no bit outside kk is set; nothing else changes (42_alu.md section 5; SPEC'S DECISION D16: the draw is a free
value, log entry 12). -/
def Obligations.RandomIsMaskedDraw : Prop :=
  ∀ (x : Nibble) (kk : Byte) (s : State),
    (∃ t, exec (.rnd x kk) s = .next t ∧ t.reg x &&& ~~~kk = 0 ∧ t.randIn = none ∧
      OnlyChanges (fun p => p = .reg x ∨ p = .random) s t) ∧
    (∀ r : Byte, ∃ t, exec (.rnd x kk) { s with randIn := some r } = .next t ∧ t.reg x = r &&& kk)

/-! ### Display -/

/-- CLS: every pixel is off; nothing else changes (43_display.md R161). -/
def Obligations.ClearScreenTurnsAllOff : Prop :=
  ∀ (ign : Byte) (s : State), ∃ t, exec (.cls ign) s = .next t ∧ (∀ x y, t.fb.pixel x y = false) ∧
    OnlyChanges (fun p => ∃ x y, p = .pixel x y) s t

/-- DRW that reads no memory (n = 0, wherever I points) or whose rows lie inside memory: each pixel that a set sprite bit
maps to is toggled, VF is 1 exactly when one of them was on and 0 otherwise, and nothing else changes
(43_display.md section 2; SPEC'S DECISIONS D5 for off-screen bits, which are clipped, and D6 for the anchor read before
VF is cleared). -/
def Obligations.DrawTogglesCoveredPixels : Prop :=
  ∀ (x y n : Nibble) (s : State), n = 0 ∨ s.i.toNat + n.toNat ≤ memSize → ∃ t, exec (.drw x y n) s = .next t ∧
    (∀ px py, t.fb.pixel px py = (s.fb.pixel px py ^^ spriteCovers s x y n px py)) ∧
    (t.reg vf = 1 ∨ t.reg vf = 0) ∧
    (t.reg vf = 1 ↔ ∃ px py, spriteCovers s x y n px py = true ∧ s.fb.pixel px py = true) ∧
    OnlyChanges (fun p => p = .reg vf ∨ ∃ px py, spriteCovers s x y n px py = true ∧ p = .pixel px py) s t

/-- THE DOUBLE-DRAW LAW: two DRW Vx, Vy, n in succession that read no memory or only inside it, x and y not 15, with V[x], V[y], I, the sprite's bytes and the
framebuffer the same in between, end with the framebuffer as it was before the first; and the second leaves
VF = 1 exactly when some pixel of the target set was off before the first (43_display.md section 2, 90_conflicts.md C7;
SPEC'S DECISION D5). -/
def Obligations.DoubleDrawRestoresFramebuffer : Prop :=
  ∀ (x y n : Nibble) (s t t' : State), x ≠ vf → y ≠ vf → (n = 0 ∨ s.i.toNat + n.toNat ≤ memSize) →
    exec (.drw x y n) s = .next t →
    t'.fb = t.fb → t'.i = t.i → t'.reg x = t.reg x → t'.reg y = t.reg y →
    (∀ r < n.toNat, t'.mem.read (s.i.toNat + r) = t.mem.read (s.i.toNat + r)) →
    ∃ u, exec (.drw x y n) t' = .next u ∧ u.fb = s.fb ∧
      (u.reg vf = 1 ↔ ∃ px py, spriteCovers s x y n px py = true ∧ s.fb.pixel px py = false)

/-! ### Keypad and timers -/

/-- SKP and SKNP with V[x] below 16: pc gains 2 more, modulo 65536, when key V[x] is, or is not, pressed; nothing else
changes (44_keypad_timers.md section 1). -/
def Obligations.KeySkips : Prop :=
  ∀ (x ign : Nibble) (s : State) (k : Fin 16), (s.reg x).toNat = k.val →
    (∃ t, exec (.skp x ign) s = .next t ∧
      t.pc.toNat = (if s.keys[k] then (s.pc.toNat + 2) % 65536 else s.pc.toNat) ∧ OnlyChanges (· = .pc) s t) ∧
    (∃ t, exec (.sknp x ign) s = .next t ∧
      t.pc.toNat = (if s.keys[k] then s.pc.toNat else (s.pc.toNat + 2) % 65536) ∧ OnlyChanges (· = .pc) s t)

/-- LD Vx, DT, LD DT, Vx and LD ST, Vx: the register becomes DT as it stands before the tick, or the timer the register;
nothing else changes (44_keypad_timers.md R183, R185, R186). -/
def Obligations.TimerTransfers : Prop :=
  ∀ (x : Nibble) (s : State),
    (∃ t, exec (.ldVxDT x) s = .next t ∧ t.reg x = s.dt ∧ OnlyChanges (· = .reg x) s t) ∧
    (∃ t, exec (.ldDTVx x) s = .next t ∧ t.dt = s.reg x ∧ OnlyChanges (· = .dt) s t) ∧
    (∃ t, exec (.ldSTVx x) s = .next t ∧ t.st = s.reg x ∧ OnlyChanges (· = .st) s t)

/-- LD Vx, K: in Idle it latches the lowest pressed key, if one is pressed, and re-executes; in KeyLatched(k) it
re-executes while key k is pressed, and once it is not, writes k to V[x] and returns to Idle, pc staying advanced;
nothing else changes (44_keypad_timers.md section 3; SPEC'S DECISION D10 for the lowest index). -/
def Obligations.WaitForKeyMachine : Prop :=
  ∀ (x : Nibble) (s : State),
    (s.wk = .idle → (∀ k : Fin 16, s.keys[k] = false) →
      ∃ t, exec (.ldVxK x) s = .next t ∧ t.pc = s.pc - 2 ∧ OnlyChanges (· = .pc) s t) ∧
    (∀ k : Fin 16, s.wk = .idle → s.keys[k] = true → (∀ j : Fin 16, j < k → s.keys[j] = false) →
      ∃ t, exec (.ldVxK x) s = .next t ∧ t.pc = s.pc - 2 ∧ t.wk = .keyLatched k ∧
        OnlyChanges (fun p => p = .pc ∨ p = .wk) s t) ∧
    (∀ k : Fin 16, s.wk = .keyLatched k → s.keys[k] = true →
      ∃ t, exec (.ldVxK x) s = .next t ∧ t.pc = s.pc - 2 ∧ OnlyChanges (· = .pc) s t) ∧
    (∀ k : Fin 16, s.wk = .keyLatched k → s.keys[k] = false →
      ∃ t, exec (.ldVxK x) s = .next t ∧ (t.reg x).toNat = k.val ∧ t.wk = .idle ∧
        OnlyChanges (fun p => p = .reg x ∨ p = .wk) s t)

/-- With no key pressed, a waiting LD Vx, K never moves on, and the timers count every one of its cycles
(44_keypad_timers.md section 3; 95_test_vectors.md E11). -/
def Obligations.WaitWithoutKeyKeepsTicking : Prop :=
  ∀ (x : Nibble) (s : State), s.normalEnd → s.fetchable → s.wordAt = encode (.ldVxK x) → s.wk = .idle →
    (∀ k : Fin 16, s.keys[k] = false) →
    ∀ n, ∃ t, core.run n s = .next t ∧ t.pc = s.pc ∧ t.wk = .idle ∧
      t.dt.toNat = s.dt.toNat - n ∧ t.st.toNat = s.st.toNat - n

/-- What a program observes of the timers: `k` cycles after a cycle that writes v to a timer, whatever keys and random
bytes the host supplies, with no fault and no later write of it, the timer holds max(v - k, 0); LD Vy, DT in that
cycle reads it (44_keypad_timers.md section 5). -/
def Obligations.WrittenTimerCountsCycles : Prop :=
  ∀ (tr : Nat → State) (k : Nat) (x : Nibble), 1 ≤ k → (∀ j < k, CycleTo (tr j) (tr (j + 1))) →
    (∀ j ≤ k, (tr j).normalEnd) →
    (decodeWord (tr 0).wordAt = .ldDTVx x → (∀ j < k, 0 < j → ∀ z, decodeWord (tr j).wordAt ≠ .ldDTVx z) →
      (tr k).dt.toNat = ((tr 0).reg x).toNat - k ∧
      ∀ y u, decodeWord (tr k).wordAt = .ldVxDT y → CycleTo (tr k) u → u.normalEnd →
        (u.reg y).toNat = ((tr 0).reg x).toNat - k) ∧
    (decodeWord (tr 0).wordAt = .ldSTVx x → (∀ j < k, 0 < j → ∀ z, decodeWord (tr j).wordAt ≠ .ldSTVx z) →
      (tr k).st.toNat = ((tr 0).reg x).toNat - k)

/-! ### Index register and memory transfers -/

/-- LD I, nnn and ADD I, Vx: I becomes nnn, or (I + V[x]) mod 65536; no flag and nothing else changes
(45_index_memory.md R200, R201). -/
def Obligations.IndexLoadAndAdd : Prop :=
  ∀ s : State,
    (∀ nnn : Addr12, ∃ t, exec (.ldI nnn) s = .next t ∧ t.i.toNat = nnn.toNat ∧ OnlyChanges (· = .index) s t) ∧
    (∀ x : Nibble, ∃ t, exec (.addI x) s = .next t ∧ t.i.toNat = (s.i.toNat + (s.reg x).toNat) % 65536 ∧
      OnlyChanges (· = .index) s t)

/-- LD F, Vx: I becomes the address of the glyph of the low digit of V[x], 0x050 + 5 * (V[x] mod 16); nothing else
changes (45_index_memory.md section 1; SPEC'S DECISIONS D2 for the base, D22 for the mask). -/
def Obligations.FontAddress : Prop :=
  ∀ (x : Nibble) (s : State), ∃ t, exec (.ldF x) s = .next t ∧
    t.i.toNat = 0x050 + 5 * ((s.reg x).toNat % 16) ∧ OnlyChanges (· = .index) s t

/-- LD B, Vx inside memory: the hundreds, tens and ones digits of V[x] are written to `mem[I]`, `mem[I + 1]` and
`mem[I + 2]`; nothing else changes (45_index_memory.md section 2). -/
def Obligations.StoreBcdWritesDigits : Prop :=
  ∀ (x : Nibble) (s : State), s.i.toNat + 3 ≤ memSize → ∃ t, exec (.ldB x) s = .next t ∧
    (t.mem.read s.i.toNat).toNat = (s.reg x).toNat / 100 ∧
    (t.mem.read (s.i.toNat + 1)).toNat = (s.reg x).toNat / 10 % 10 ∧
    (t.mem.read (s.i.toNat + 2)).toNat = (s.reg x).toNat % 10 ∧
    OnlyChanges (fun p => ∃ k < 3, p = .byte (s.i.toNat + k)) s t

/-- LD [I], Vx inside memory: V[0] to V[x] are written from `mem[I]` on; nothing else changes, I among the rest
(45_index_memory.md section 2; SPEC'S DECISION D8 for I). -/
def Obligations.StoreRegistersToMemory : Prop :=
  ∀ (x : Nibble) (s : State), s.i.toNat + x.toNat < memSize → ∃ t, exec (.storeRegs x) s = .next t ∧
    (∀ r : Nibble, r.toNat ≤ x.toNat → t.mem.read (s.i.toNat + r.toNat) = s.reg r) ∧
    OnlyChanges (fun p => ∃ k ≤ x.toNat, p = .byte (s.i.toNat + k)) s t

/-- LD Vx, [I] inside memory: V[0] to V[x] are read from `mem[I]` on; nothing else changes, I among the rest
(45_index_memory.md section 2; SPEC'S DECISION D8 for I). -/
def Obligations.LoadRegistersFromMemory : Prop :=
  ∀ (x : Nibble) (s : State), s.i.toNat + x.toNat < memSize → ∃ t, exec (.loadRegs x) s = .next t ∧
    (∀ r : Nibble, r.toNat ≤ x.toNat → t.reg r = s.mem.read (s.i.toNat + r.toNat)) ∧
    OnlyChanges (fun p => ∃ r : Nibble, r.toNat ≤ x.toNat ∧ p = .reg r) s t

/-! ### Reset and the host interface -/

/-- RESET: the Reset transaction answers a next state from every state, a halted one among them; and after it, as in the
machine's first state, registers, stack and timers are 0, pc 0x200, pixels off, keys released, wk Idle, FAULT clear,
memory 0 but for the 80 font bytes at 0x050, written out here from the table of glyphs (10_state.md sections 4 and 9,
70_reset_and_hazards.md section 1; SPEC'S DECISIONS D2, D3, D11, D17). The model's own fields randIn and draws are left
out (log entry 12). -/
def Obligations.ResetState : Prop :=
  (∀ s : State, ∃ t, transact .reset s = .next t) ∧
  ∀ t : State, (t = State.reset ∨ ∃ s, transact .reset s = .next t) →
    (∀ r, t.reg r = 0) ∧ t.i = 0 ∧ t.pc = 0x200 ∧ (∀ k : Fin 16, t.stack[k] = 0) ∧ t.sp = 0 ∧ t.dt = 0 ∧ t.st = 0 ∧
    (∀ a, a < 0x050 ∨ 0x0A0 ≤ a → t.mem.read a = 0) ∧
    (List.range 80).map (fun j => t.mem.read (0x050 + j)) =
      [0xF0, 0x90, 0x90, 0x90, 0xF0] ++ [0x20, 0x60, 0x20, 0x20, 0x70] ++
      [0xF0, 0x10, 0xF0, 0x80, 0xF0] ++ [0xF0, 0x10, 0xF0, 0x10, 0xF0] ++
      [0x90, 0x90, 0xF0, 0x10, 0x10] ++ [0xF0, 0x80, 0xF0, 0x10, 0xF0] ++
      [0xF0, 0x80, 0xF0, 0x90, 0xF0] ++ [0xF0, 0x10, 0x20, 0x40, 0x40] ++
      [0xF0, 0x90, 0xF0, 0x90, 0xF0] ++ [0xF0, 0x90, 0xF0, 0x10, 0xF0] ++
      [0xF0, 0x90, 0xF0, 0x90, 0x90] ++ [0xE0, 0x90, 0xE0, 0x90, 0xE0] ++
      [0xF0, 0x80, 0x80, 0x80, 0xF0] ++ [0xE0, 0x90, 0x90, 0x90, 0xE0] ++
      [0xF0, 0x80, 0xF0, 0x80, 0xF0] ++ [0xF0, 0x80, 0xF0, 0x80, 0x80] ∧
    (∀ x y, t.fb.pixel x y = false) ∧ (∀ k : Fin 16, t.keys[k] = false) ∧ t.wk = .idle ∧
    t.faultReg = ⟨.noFault, 0, 0, 0⟩

/-- LOAD: an image of at most 3584 bytes is written verbatim from 0x200 on and nothing else changes; a longer one is
refused and changes nothing (60_exceptions.md section 4, 70_reset_and_hazards.md section 1; SPEC'S DECISION D19). -/
def Obligations.LoadWritesImage : Prop :=
  ∀ (image : List Byte) (s : State),
    (image.length ≤ 3584 → ∃ t, transact (.load image) s = .next t ∧
      (∀ (j : Nat) (h : j < image.length), t.mem.read (0x200 + j) = image[j]) ∧
      OnlyChanges (fun p => ∃ j < image.length, p = .byte (0x200 + j)) s t) ∧
    (3584 < image.length → transact (.load image) s = .refused (.imageTooLong image.length) ∧
      afterTransact (.load image) s = s)

/-- The display adapter's 2048 cells: cell y*64 + x is 0xFFFFFFFF where the pixel (x, y) is on and 0 where it is off
(10_state.md section 5; SPEC'S DECISIONS D14, D15). -/
def Obligations.DisplayCellsAreRowMajor : Prop :=
  ∀ (s : State), s.displayCells.length = 2048 ∧
    ∀ (x : Fin 64) (y : Fin 32), s.displayCells[y.val * 64 + x.val]?
      = some (if s.fb.pixel x y then 0xFFFFFFFF else 0x00000000)

/-- SELF-MODIFYING CODE: the bytes that LD [I], Vx stores are what the next fetch reads where they stand at the next pc
(20_memory.md section 3): if V[j] and V[j + 1] are stored there in this cycle, the next word is {V[j], V[j + 1]}. -/
def Obligations.StoreIsSeenByNextFetch : Prop :=
  ∀ (x j : Nibble) (s t : State), s.normalEnd → s.fetchable → s.wordAt = encode (.storeRegs x) →
    s.i.toNat + x.toNat < memSize → j.toNat + 1 ≤ x.toNat → s.pc.toNat + 2 = s.i.toNat + j.toNat →
    step s = .next t → t.wordAt = s.reg j ++ s.reg (j + 1)

/-- SETKEYS: the 16 key flags become the given ones, all at once, and nothing else changes (60_exceptions.md section 4;
SPEC'S DECISION D19). -/
def Obligations.SetKeysWritesAllFlags : Prop :=
  ∀ (keys : Vector Bool 16) (s : State), ∃ t, transact (.setKeys keys) s = .next t ∧ t.keys = keys ∧
    OnlyChanges (fun p => ∃ k, p = .key k) s t

/-- Reset is the only transaction that ends the halt: every other one leaves FAULT of a halted block as it is
(70_reset_and_hazards.md section 1, 40_cycle_dispatch.md section 3; SPEC'S DECISION D17). -/
def Obligations.OnlyResetEndsHalt : Prop :=
  ∀ (x : Transaction) (s : State), s.halted →
    ((afterTransact x s).normalEnd ↔ x = .reset) ∧ (x ≠ .reset → (afterTransact x s).faultReg = s.faultReg)

/-- STEP, on a block that is not halted: one cycle, with the random byte that the host supplies for it; where that cycle
executes RND, V[x] becomes that byte AND kk, and in every case no byte is left over for the next cycle
(60_exceptions.md section 4, 40_cycle_dispatch.md section 4; SPEC'S DECISIONS D16, D19; log entry 12). -/
def Obligations.StepTransactionRunsOneCycle : Prop :=
  ∀ (r : Byte) (s : State), s.normalEnd →
    ∃ t, step { s with randIn := some r } = .next t ∧ transact (.step r) s = .next { t with randIn := none } ∧
      ∀ x kk, s.fetchable → decodeWord s.wordAt = .rnd x kk → t.reg x = r &&& kk
end

