-- ==== Sys2Proof/Laws/Memory.lean ====
section
/-! SUPPORT. The laws of memory: read after write, the canonical form, and what the shared accesses answer. -/

namespace Sys2Proof.Machine

/-! ### Read after write -/

/-- Without its cell, an address reads as unlisted; every other address reads as before. -/
theorem Memory.read_erase (m : Memory) (a k : Nat) :
    (m.erase a).read k = if k = a then memDefault k else m.read k := by
  induction m with
  | nil => simp [Memory.erase, Memory.read]
  | cons c rest ih =>
    obtain ⟨j, b⟩ := c
    by_cases hj : j = a
    · have : Memory.erase ((j, b) :: rest) a = Memory.erase rest a := by simp [Memory.erase, hj]
      rw [this, ih]
      by_cases hk : k = a
      · simp [hk]
      · have : j ≠ k := by omega
        simp [hk, Memory.read, this]
    · have : Memory.erase ((j, b) :: rest) a = (j, b) :: Memory.erase rest a := by simp [Memory.erase, hj]
      rw [this]
      simp only [Memory.read, ih]
      by_cases hjk : j = k
      · have : k ≠ a := by omega
        simp [hjk, this]
      · simp [hjk]

/-- An inserted cell is read at its own address where no other cell lists that address. -/
theorem Memory.read_insert (m : Memory) (a : Nat) (b : Byte) (h : ∀ c ∈ m, c.1 ≠ a) (k : Nat) :
    (m.insert a b).read k = if k = a then b else m.read k := by
  induction m with
  | nil =>
    by_cases hk : k = a
    · simp [Memory.insert, Memory.read, hk]
    · have : a ≠ k := by omega
      simp [Memory.insert, Memory.read, hk, this]
  | cons c rest ih =>
    obtain ⟨j, d⟩ := c
    have hja : j ≠ a := h (j, d) (by simp)
    have ih := ih (fun c hc => h c (by simp [hc]))
    by_cases hlt : a < j
    · by_cases hk : k = a
      · simp [Memory.insert, Memory.read, hlt, hk]
      · have : a ≠ k := by omega
        simp [Memory.insert, Memory.read, hlt, hk, this]
    · simp only [Memory.insert, hlt, if_false, Memory.read, ih]
      by_cases hjk : j = k
      · have : k ≠ a := by omega
        simp [hjk, this]
      · simp [hjk]

theorem Memory.erase_ne (m : Memory) (a : Nat) : ∀ c ∈ m.erase a, c.1 ≠ a := by
  intro c hc
  simpa [Memory.erase] using (List.mem_filter.mp hc).2

/-- READ AFTER WRITE: the byte written, at the address written; every other address is left alone. -/
@[simp] theorem Memory.read_write (m : Memory) (a : Nat) (b : Byte) (k : Nat) :
    (m.write a b).read k = if k = a then b else m.read k := by
  unfold Memory.write
  split
  · rename_i h
    rw [Memory.read_erase]
    by_cases hk : k = a
    · simp [hk, h]
    · simp [hk]
  · rw [Memory.read_insert _ _ _ (Memory.erase_ne m a), Memory.read_erase]
    by_cases hk : k = a <;> simp [hk]

/-! ### The canonical form -/

theorem Memory.mem_insert (m : Memory) (a : Nat) (b : Byte) (c : Host.Cell) :
    c ∈ m.insert a b ↔ c = (a, b) ∨ c ∈ m := by
  induction m with
  | nil => simp [Memory.insert]
  | cons d rest ih =>
    simp only [Memory.insert]
    split
    · simp
    · simp only [List.mem_cons, ih]
      tauto

theorem Memory.wf_erase {m : Memory} (h : m.wf) (a : Nat) : (m.erase a).wf :=
  ⟨h.1.sublist List.filter_sublist, fun c hc => h.2 c (List.mem_filter.mp hc).1⟩

theorem Memory.pairwise_insert {m : Memory} {a : Nat} (b : Byte)
    (h : m.Pairwise (fun c d => c.1 < d.1)) (ha : ∀ c ∈ m, c.1 ≠ a) :
    (m.insert a b).Pairwise (fun c d => c.1 < d.1) := by
  induction m with
  | nil => simp [Memory.insert]
  | cons c rest ih =>
    obtain ⟨hc, hrest⟩ := List.pairwise_cons.mp h
    have hca : c.1 ≠ a := ha c (by simp)
    simp only [Memory.insert]
    split
    · rename_i hlt
      refine List.pairwise_cons.mpr ⟨fun d hd => ?_, h⟩
      rcases List.mem_cons.mp hd with rfl | hd
      · exact hlt
      · exact Nat.lt_trans hlt (hc d hd)
    · rename_i hlt
      refine List.pairwise_cons.mpr ⟨fun d hd => ?_, ih hrest (fun d hd => ha d (by simp [hd]))⟩
      rcases (Memory.mem_insert rest a b d).mp hd with rfl | hd
      · show c.1 < a
        omega
      · exact hc d hd

/-- A write inside memory keeps the canonical form. -/
theorem Memory.wf_write {m : Memory} (h : m.wf) {a : Nat} (ha : a < memSize) (b : Byte) : (m.write a b).wf := by
  unfold Memory.write
  split
  · exact Memory.wf_erase h a
  · rename_i hb
    have he := Memory.wf_erase h a
    refine ⟨Memory.pairwise_insert b he.1 (Memory.erase_ne m a), fun c hc => ?_⟩
    rcases (Memory.mem_insert _ a b c).mp hc with rfl | hc
    · exact ⟨ha, hb⟩
    · exact he.2 c hc

/-- The memory of reset, which lists nothing, has the canonical form. -/
theorem Memory.wf_nil : Memory.wf [] := by simp [Memory.wf]

/-! ### The accesses -/

/-- `locate` answers an address inside memory. -/
theorem locate_lt {p : RangePolicy} {a k : Nat} (h : locate p a = .ok k) : k < memSize := by
  unfold locate at h
  split at h
  · cases h; assumption
  · cases p with
    | fault => cases h
    | wrap => cases h; exact Nat.mod_lt _ (by decide)

theorem locate_of_lt (p : RangePolicy) {a : Nat} (h : a < memSize) : locate p a = .ok a := by
  simp [locate, h]

theorem locate_fault {a : Nat} (h : memSize ≤ a) :
    locate .fault a = .error ⟨.memRange, BitVec.ofNat 16 a⟩ := by
  simp [locate, Nat.not_lt.mpr h]

theorem memRead_of_lt (p : RangePolicy) (m : Memory) {a : Nat} (h : a < memSize) :
    memRead p m a = .ok (m.read a) := by
  simp [memRead, locate_of_lt p h]

theorem memRead_fault (m : Memory) {a : Nat} (h : memSize ≤ a) :
    memRead .fault m a = .error ⟨.memRange, BitVec.ofNat 16 a⟩ := by
  simp [memRead, locate_fault h]

theorem memWrite_of_lt (p : RangePolicy) (m : Memory) {a : Nat} (h : a < memSize) (b : Byte) :
    memWrite p m a b = .ok (m.write a b) := by
  simp [memWrite, locate_of_lt p h]

theorem memWrite_fault (m : Memory) {a : Nat} (h : memSize ≤ a) (b : Byte) :
    memWrite .fault m a b = .error ⟨.memRange, BitVec.ofNat 16 a⟩ := by
  simp [memWrite, locate_fault h]

theorem wf_memWrite {p : RangePolicy} {m m' : Memory} {a : Nat} {b : Byte} (hw : m.wf)
    (h : memWrite p m a b = .ok m') : m'.wf := by
  unfold memWrite at h
  split at h
  · rename_i k hk
    cases h
    exact Memory.wf_write hw (locate_lt hk) b
  · cases h

/-- `storeBytes` keeps the canonical form, whatever the policy. -/
theorem wf_storeBytes {p : RangePolicy} (bs : List Byte) : ∀ {a : Nat} {m m' : Memory}, m.wf →
    storeBytes p a bs m = .ok m' → m'.wf := by
  induction bs with
  | nil => intro a m m' hw h; cases h; exact hw
  | cons b bs ih =>
    intro a m m' hw h
    simp only [storeBytes] at h
    split at h
    · rename_i m1 h1
      exact ih (wf_memWrite hw h1) h
    · cases h

/-- Inside memory `storeBytes` answers, and then the byte at `a + j` is byte `j` of the list and every other byte is as
before. -/
theorem storeBytes_in_range (p : RangePolicy) (bs : List Byte) : ∀ (a : Nat) (m : Memory),
    a + bs.length ≤ memSize → ∃ m', storeBytes p a bs m = .ok m' ∧
      ∀ k, m'.read k = if a ≤ k ∧ k < a + bs.length then bs.getD (k - a) 0 else m.read k := by
  induction bs with
  | nil =>
    intro a m _
    refine ⟨m, rfl, fun k => ?_⟩
    rw [if_neg (by simp)]
  | cons b bs ih =>
    intro a m h
    simp only [List.length_cons] at h
    obtain ⟨m', h1, h2⟩ := ih (a + 1) (m.write a b) (by omega)
    refine ⟨m', by simp [storeBytes, memWrite_of_lt p m (show a < memSize by omega) b, h1], fun k => ?_⟩
    rw [h2 k, Memory.read_write]
    simp only [List.length_cons]
    by_cases hk : k = a
    · rw [if_neg (by omega), if_pos hk, if_pos (by omega)]
      simp [hk]
    · by_cases hk2 : a + 1 ≤ k ∧ k < a + 1 + bs.length
      · rw [if_pos hk2, if_pos (by omega)]
        have : k - a = (k - (a + 1)) + 1 := by omega
        simp [this]
      · rw [if_neg hk2, if_neg hk, if_neg (by omega)]

/-- Past the end of memory `storeBytes` raises MemRange with the first out-of-range address (60_exceptions.md R224). -/
theorem storeBytes_out_of_range (bs : List Byte) : ∀ (a : Nat) (m : Memory), bs ≠ [] →
    memSize < a + bs.length →
      storeBytes .fault a bs m = .error ⟨.memRange, BitVec.ofNat 16 (max a memSize)⟩ := by
  induction bs with
  | nil => intro a m h _; exact absurd rfl h
  | cons b bs ih =>
    intro a m _ h
    simp only [List.length_cons] at h
    by_cases ha : a < memSize
    · have hne : bs ≠ [] := by
        rintro rfl
        simp at h
        omega
      simp only [storeBytes, memWrite_of_lt _ m ha b]
      rw [ih (a + 1) _ hne (by omega), Nat.max_eq_right (by omega), Nat.max_eq_right (by omega)]
    · simp only [storeBytes, memWrite_fault m (Nat.le_of_not_lt ha) b]
      rw [Nat.max_eq_left (by omega)]

/-- Every raise of `storeBytes` is MemRange. -/
theorem storeBytes_error {p : RangePolicy} (bs : List Byte) : ∀ {a : Nat} {m : Memory} {e : Raise},
    storeBytes p a bs m = .error e → e.cause = .memRange := by
  induction bs with
  | nil => intro a m e h; cases h
  | cons b bs ih =>
    intro a m e h
    simp only [storeBytes] at h
    split at h
    · exact ih h
    · rename_i e' h'
      cases h
      unfold memWrite locate at h'
      split at h'
      · cases h'
      · rename_i h''
        split at h''
        · cases h''
        · cases p <;> cases h''
          cases h'
          rfl

/-- Inside memory `loadBytes` answers the bytes at `a`, `a + 1`, ... -/
theorem loadBytes_in_range (p : RangePolicy) (m : Memory) (n : Nat) : ∀ (a : Nat), a + n ≤ memSize →
    loadBytes p m a n = .ok ((List.range n).map (fun j => m.read (a + j))) := by
  induction n with
  | zero => intro a _; rfl
  | succ n ih =>
    intro a h
    simp only [loadBytes, memRead_of_lt p m (show a < memSize by omega), ih (a + 1) (by omega)]
    rw [List.range_succ_eq_map]
    simp [Function.comp_def, Nat.add_comm, Nat.add_left_comm]

/-- Past the end of memory `loadBytes` raises MemRange with the first out-of-range address (60_exceptions.md R224). -/
theorem loadBytes_out_of_range (m : Memory) (n : Nat) : ∀ (a : Nat), 0 < n → memSize < a + n →
    loadBytes .fault m a n = .error ⟨.memRange, BitVec.ofNat 16 (max a memSize)⟩ := by
  induction n with
  | zero => intro a h; omega
  | succ n ih =>
    intro a _ h
    by_cases ha : a < memSize
    · simp only [loadBytes, memRead_of_lt _ m ha]
      rw [ih (a + 1) (by omega) (by omega), Nat.max_eq_right (by omega), Nat.max_eq_right (by omega)]
    · simp only [loadBytes, memRead_fault m (Nat.le_of_not_lt ha)]
      rw [Nat.max_eq_left (by omega)]

/-- A program image of Load writes byte `j` at `a + j` and no other byte (70_reset_and_hazards.md R252). -/
theorem read_writeImage (bs : List Byte) : ∀ (a : Nat) (m : Memory) (k : Nat),
    (writeImage a bs m).read k = if a ≤ k ∧ k < a + bs.length then bs.getD (k - a) 0 else m.read k := by
  induction bs with
  | nil =>
    intro a m k
    rw [if_neg (by simp)]
    rfl
  | cons b bs ih =>
    intro a m k
    simp only [writeImage, List.length_cons]
    rw [ih, Memory.read_write]
    by_cases hk : k = a
    · rw [if_neg (by omega), if_pos hk, if_pos (by omega)]
      simp [hk]
    · by_cases hk2 : a + 1 ≤ k ∧ k < a + 1 + bs.length
      · rw [if_pos hk2, if_pos (by omega)]
        have : k - a = (k - (a + 1)) + 1 := by omega
        simp [this]
      · rw [if_neg hk2, if_neg hk, if_neg (by omega)]

/-- A program image inside memory keeps the canonical form. -/
theorem wf_writeImage (bs : List Byte) : ∀ {a : Nat} {m : Memory}, m.wf → a + bs.length ≤ memSize →
    (writeImage a bs m).wf := by
  induction bs with
  | nil => intro a m h _; exact h
  | cons b bs ih =>
    intro a m h hl
    simp only [List.length_cons] at hl
    exact ih (Memory.wf_write h (by omega) b) (by omega)

end Sys2Proof.Machine
end

