-- ==== Sys2Proof/Laws/Draw.lean ====
section
/-! SUPPORT. What the XOR-collision unit does under `EDGE_POLICY = clip` (43_display.md R162-R164): each row toggles
the pixels its set bits map to and notes the collisions, whatever the order of the columns. -/

namespace Sys2Proof.Machine

/-- A toggle inverts its own pixel and no other. -/
@[simp] theorem Framebuffer.pixel_toggle (fb : Framebuffer) (x px : Fin 64) (y py : Fin 32) :
    (fb.toggle x y).pixel px py = if px = x ∧ py = y then !fb.pixel px py else fb.pixel px py := by
  unfold Framebuffer.toggle Framebuffer.pixel
  by_cases hy : py = y
  · subst hy
    by_cases hx : px = x
    · subst hx; simp
    · have : x.val ≠ px.val := fun e => hx (Fin.ext e.symm)
      simp [hx, Vector.getElem_set_ne, this]
  · have : y.val ≠ py.val := fun e => hy (Fin.ext e.symm)
    simp [hy, Vector.getElem_set_ne, this]

/-- Two framebuffers with the same pixels are the same. -/
theorem Framebuffer.ext_pixel {f g : Framebuffer} (h : ∀ x y, f.pixel x y = g.pixel x y) : f = g := by
  apply Vector.ext
  intro y hy
  apply Vector.ext
  intro x hx
  exact h ⟨x, hx⟩ ⟨y, hy⟩

/-- Every pixel of the blank framebuffer is off. -/
@[simp] theorem Framebuffer.pixel_blank (x : Fin 64) (y : Fin 32) : Framebuffer.blank.pixel x y = false := by
  simp [Framebuffer.blank, Framebuffer.pixel]

/-- One canvas is another with the pixels of `hits` toggled, each toggle noted where it met a pixel that was on. -/
def Toggled (hits : Fin 64 → Fin 32 → Bool) (d d' : Canvas) : Prop :=
  (∀ px py, d'.fb.pixel px py = (d.fb.pixel px py ^^ hits px py)) ∧
    (d'.hit = true ↔ d.hit = true ∨ ∃ px py, hits px py = true ∧ d.fb.pixel px py = true)

theorem Toggled.refl (d : Canvas) : Toggled (fun _ _ => false) d d := by
  simp [Toggled]

theorem Toggled.plot (x : Fin 64) (y : Fin 32) (d : Canvas) :
    Toggled (fun px py => decide (px = x ∧ py = y)) d (plot x y d) := by
  refine ⟨fun px py => ?_, ?_⟩
  · by_cases h : px = x ∧ py = y <;> simp [Machine.plot, h]
  · simp [Machine.plot]

/-- Disjoint toggles compose. -/
theorem Toggled.trans {h1 h2 : Fin 64 → Fin 32 → Bool} {a b c : Canvas} (hab : Toggled h1 a b) (hbc : Toggled h2 b c)
    (hd : ∀ px py, h1 px py = true → h2 px py = false) : Toggled (fun px py => h1 px py || h2 px py) a c := by
  refine ⟨fun px py => ?_, ?_⟩
  · rw [hbc.1, hab.1]
    have := hd px py
    cases h : h1 px py <;> cases h' : h2 px py <;> simp_all
  · rw [hbc.2, hab.2]
    constructor
    · rintro ((h | ⟨px, py, h, ho⟩) | ⟨px, py, h, ho⟩)
      · exact Or.inl h
      · exact Or.inr ⟨px, py, by simp [h], ho⟩
      · refine Or.inr ⟨px, py, by simp [h], ?_⟩
        rw [hab.1] at ho
        have h1f : h1 px py = false := by
          cases h1e : h1 px py
          · rfl
          · rw [hd px py h1e] at h; cases h
        simpa [h1f] using ho
    · rintro (h | ⟨px, py, h, ho⟩)
      · exact Or.inl (Or.inl h)
      · rcases (Bool.or_eq_true _ _).mp h with h | h
        · exact Or.inl (Or.inr ⟨px, py, h, ho⟩)
        · refine Or.inr ⟨px, py, h, ?_⟩
          rw [hab.1, ho]
          have h1f : h1 px py = false := by
            cases h1e : h1 px py
            · rfl
            · rw [hd px py h1e] at h; cases h
          simp [h1f]

theorem Toggled.congr {h1 h2 : Fin 64 → Fin 32 → Bool} {a b : Canvas} (h : Toggled h1 a b)
    (e : ∀ px py, h1 px py = h2 px py) : Toggled h2 a b := by
  have : h1 = h2 := by funext px py; exact e px py
  exact this ▸ h

/-- One sprite bit under `clip`: it toggles its target, if it is set and the target is on screen. -/
theorem drawBit_clip (tx ty : Nat) (bit : Bool) (d : Canvas) : ∃ d', drawBit .clip tx ty bit d = .ok d' ∧
    Toggled (fun px py => bit && decide (px.val = tx ∧ py.val = ty)) d d' := by
  unfold drawBit
  cases bit
  · exact ⟨d, rfl, (Toggled.refl d).congr (by simp)⟩
  · by_cases h : tx < 64 ∧ ty < 32
    · refine ⟨plot (Fin.ofNat 64 tx) (Fin.ofNat 32 ty) d, by simp [h], (Toggled.plot _ _ d).congr fun px py => ?_⟩
      simp [Fin.ext_iff, Nat.mod_eq_of_lt h.1, Nat.mod_eq_of_lt h.2]
    · refine ⟨d, by simp [h], (Toggled.refl d).congr fun px py => ?_⟩
      have : ¬ (px.val = tx ∧ py.val = ty) := by
        rintro ⟨rfl, rfl⟩
        exact h ⟨px.isLt, py.isLt⟩
      simp [this]

/-- A list of distinct columns under `clip`: it toggles the on-screen targets of its set bits. -/
theorem drawCols_clip (ax ty : Nat) (b : Byte) (cs : List Nat) (hn : cs.Nodup) : ∀ d : Canvas,
    ∃ d', drawCols .clip ax ty b cs d = .ok d' ∧
      Toggled (fun px py => decide (py.val = ty ∧ ax ≤ px.val ∧ px.val - ax ∈ cs) && spriteBit b (px.val - ax)) d d' := by
  induction cs with
  | nil => intro d; exact ⟨d, rfl, (Toggled.refl d).congr (by simp)⟩
  | cons c cs ih =>
    intro d
    obtain ⟨hc, hcs⟩ := List.nodup_cons.mp hn
    obtain ⟨d1, e1, t1⟩ := drawBit_clip (ax + c) ty (spriteBit b c) d
    obtain ⟨d2, e2, t2⟩ := ih hcs d1
    refine ⟨d2, by simp [drawCols, e1, e2], (t1.trans t2 fun px py h => ?_).congr fun px py => ?_⟩
    · have hx : px.val - ax = c := by
        simp at h; omega
      simp [hx, hc]
    · by_cases hx : px.val = ax + c
      · have hx' : px.val - ax = c := by omega
        simp [hx, hc, Bool.and_comm]
      · have hx' : ¬ (ax ≤ px.val ∧ px.val - ax = c) := by omega
        by_cases hle : ax ≤ px.val
        · have : px.val - ax ≠ c := fun e => hx' ⟨hle, e⟩
          simp [hx, hle, this]
        · simp [hx, hle]

/-- The set bits of the sprite rows in a list, as pixels: row `r` is the byte at `base + r`, drawn at line `ay + r`. -/
def rowsCover (m : Memory) (base ax ay : Nat) (rs : List Nat) (px : Fin 64) (py : Fin 32) : Bool :=
  decide (ay ≤ py.val ∧ py.val - ay ∈ rs ∧ ax ≤ px.val ∧ px.val - ax < 8) &&
    spriteBit (m.read (base + (py.val - ay))) (px.val - ax)

/-- A list of distinct rows inside memory under `clip` toggles the on-screen targets of its set bits. -/
theorem drawRows_clip (cfg : Config) (he : cfg.edgePolicy = .clip) (m : Memory) (base ax ay : Nat) (rs : List Nat)
    (hn : rs.Nodup) (hm : ∀ r ∈ rs, base + r < memSize) : ∀ d : Canvas, ∃ d', drawRows cfg m base ax ay rs d = .ok d' ∧
      Toggled (rowsCover m base ax ay rs) d d' := by
  induction rs with
  | nil => intro d; exact ⟨d, rfl, (Toggled.refl d).congr (by simp [rowsCover])⟩
  | cons r rs ih =>
    intro d
    obtain ⟨hr, hrs⟩ := List.nodup_cons.mp hn
    obtain ⟨d1, e1, t1⟩ := drawCols_clip ax (ay + r) (m.read (base + r)) (List.range 8) List.nodup_range d
    obtain ⟨d2, e2, t2⟩ := ih hrs (fun q hq => hm q (by simp [hq])) d1
    refine ⟨d2, ?_, (t1.trans t2 fun px py h => ?_).congr fun px py => ?_⟩
    · simp [drawRows, memRead_of_lt _ m (hm r (by simp)), he, e1, e2]
    · have hy : py.val - ay = r := by
        simp at h; omega
      simp [rowsCover, hy, hr]
    · simp only [rowsCover, List.mem_range, List.mem_cons]
      by_cases hy : py.val = ay + r
      · have hy' : py.val - ay = r := by omega
        simp [hy, hr]
      · by_cases hle : ay ≤ py.val
        · have : py.val - ay ≠ r := by omega
          simp [hy, hle, this]
        · simp [hy, hle]

/-- Past the end of memory a draw under `clip` raises MemRange with the first out-of-range address
(60_exceptions.md R224). -/
theorem drawRows_out_of_range (cfg : Config) (he : cfg.edgePolicy = .clip) (hp : cfg.rangePolicy = .fault) (m : Memory)
    (base ax ay : Nat) (n : Nat) : ∀ (k : Nat) (d : Canvas), 0 < n → memSize < base + k + n →
      drawRows cfg m base ax ay (List.range' k n) d
        = .error ⟨.memRange, BitVec.ofNat 16 (max (base + k) memSize)⟩ := by
  induction n with
  | zero => intro k d h; omega
  | succ n ih =>
    intro k d _ h
    rw [List.range'_succ]
    by_cases hk : base + k < memSize
    · obtain ⟨d1, e1, _⟩ := drawCols_clip ax (ay + k) (m.read (base + k)) (List.range 8) List.nodup_range d
      simp only [drawRows, memRead_of_lt _ m hk, he, e1]
      rw [ih (k + 1) d1 (by omega) (by omega), Nat.max_eq_right (by omega), Nat.max_eq_right (by omega)]
    · simp only [drawRows, hp, memRead_fault m (Nat.le_of_not_lt hk)]
      rw [Nat.max_eq_left (by omega)]

/-- The rows of a whole sprite cover what `spriteCovers` says. -/
theorem rowsCover_eq_spriteCovers (s : State) (x y n : Nibble) (px : Fin 64) (py : Fin 32) :
    rowsCover s.mem s.i.toNat ((s.reg x).toNat % 64) ((s.reg y).toNat % 32) (List.range n.toNat) px py
      = spriteCovers s x y n px py := by
  simp only [rowsCover, spriteCovers, spriteBit, List.mem_range]
  congr 1
  rw [Bool.eq_iff_iff]
  simp
  omega

end Sys2Proof.Machine
end

