-- ==== Sys2Proof/Laws/Encoding.lean ====
section
/-! SUPPORT. The fields of a word as numbers, concatenation as a number, and the opcode map's rows being disjoint
(30_encoding.md R72, R76). -/

namespace Sys2Proof

/-- `{a, b}` as a number: `a` in the high bits. -/
theorem toNat_concat {m n : Nat} (a : BitVec m) (b : BitVec n) : (a ++ b).toNat = a.toNat * 2 ^ n + b.toNat := by
  rw [BitVec.toNat_append, ← Nat.shiftLeft_add_eq_or_of_lt b.isLt, Nat.shiftLeft_eq]

theorem toNat_fieldOp (w : Word) : (fieldOp w).toNat = w.toNat / 4096 % 16 := by
  simp [fieldOp, Nat.shiftRight_eq_div_pow]
theorem toNat_fieldX (w : Word) : (fieldX w).toNat = w.toNat / 256 % 16 := by
  simp [fieldX, Nat.shiftRight_eq_div_pow]
theorem toNat_fieldY (w : Word) : (fieldY w).toNat = w.toNat / 16 % 16 := by
  simp [fieldY, Nat.shiftRight_eq_div_pow]
theorem toNat_fieldN (w : Word) : (fieldN w).toNat = w.toNat % 16 := by
  simp [fieldN]
theorem toNat_fieldKK (w : Word) : (fieldKK w).toNat = w.toNat % 256 := by
  simp [fieldKK]
theorem toNat_fieldNNN (w : Word) : (fieldNNN w).toNat = w.toNat % 4096 := by
  simp [fieldNNN]
theorem toNat_fieldMid (w : Word) : (fieldMid w).toNat = w.toNat / 16 % 256 := by
  simp [fieldMid, Nat.shiftRight_eq_div_pow]

/-! The fields of a word put together in each format of 30_encoding.md R72. -/

theorem fields_A (p : Nibble) (m : Addr12) :
    fieldOp (p ++ m) = p ∧ fieldNNN (p ++ m) = m ∧ fieldN (p ++ m) = keyN m ∧ fieldKK (p ++ m) = keyKK m := by
  have hp := p.isLt
  have hm := m.isLt
  refine ⟨BitVec.eq_of_toNat_eq ?_, BitVec.eq_of_toNat_eq ?_, BitVec.eq_of_toNat_eq ?_, BitVec.eq_of_toNat_eq ?_⟩
  · rw [toNat_fieldOp, toNat_concat]; omega
  · rw [toNat_fieldNNN, toNat_concat]; omega
  · rw [toNat_fieldN, toNat_concat]; simp [keyN]; omega
  · rw [toNat_fieldKK, toNat_concat]; simp [keyKK]; omega

theorem fields_XK (p x : Nibble) (k : Byte) :
    fieldOp (p ++ x ++ k) = p ∧ fieldX (p ++ x ++ k) = x ∧ fieldKK (p ++ x ++ k) = k := by
  have hp := p.isLt
  have hx := x.isLt
  have hk := k.isLt
  refine ⟨BitVec.eq_of_toNat_eq ?_, BitVec.eq_of_toNat_eq ?_, BitVec.eq_of_toNat_eq ?_⟩
  · rw [toNat_fieldOp, toNat_concat, toNat_concat]; omega
  · rw [toNat_fieldX, toNat_concat, toNat_concat]; omega
  · rw [toNat_fieldKK, toNat_concat, toNat_concat]; omega

theorem fields_XYN (p x y n : Nibble) :
    fieldOp (p ++ x ++ y ++ n) = p ∧ fieldX (p ++ x ++ y ++ n) = x ∧ fieldY (p ++ x ++ y ++ n) = y ∧
      fieldN (p ++ x ++ y ++ n) = n := by
  have hp := p.isLt
  have hx := x.isLt
  have hy := y.isLt
  have hn := n.isLt
  refine ⟨BitVec.eq_of_toNat_eq ?_, BitVec.eq_of_toNat_eq ?_, BitVec.eq_of_toNat_eq ?_, BitVec.eq_of_toNat_eq ?_⟩
  · rw [toNat_fieldOp, toNat_concat, toNat_concat, toNat_concat]; omega
  · rw [toNat_fieldX, toNat_concat, toNat_concat, toNat_concat]; omega
  · rw [toNat_fieldY, toNat_concat, toNat_concat, toNat_concat]; omega
  · rw [toNat_fieldN, toNat_concat, toNat_concat, toNat_concat]; omega

theorem fields_N (p n : Nibble) (m : Byte) :
    fieldOp (p ++ m ++ n) = p ∧ fieldMid (p ++ m ++ n) = m ∧ fieldN (p ++ m ++ n) = n := by
  have hp := p.isLt
  have hm := m.isLt
  have hn := n.isLt
  refine ⟨BitVec.eq_of_toNat_eq ?_, BitVec.eq_of_toNat_eq ?_, BitVec.eq_of_toNat_eq ?_⟩
  · rw [toNat_fieldOp, toNat_concat, toNat_concat]; omega
  · rw [toNat_fieldMid, toNat_concat, toNat_concat]; omega
  · rw [toNat_fieldN, toNat_concat, toNat_concat]; omega

/-- The two bytes of a word, put together again, are the word (30_encoding.md R71). -/
theorem wordOfBytes_bytes (w : Word) : wordOfBytes (highByte w) (lowByte w) = w := by
  apply BitVec.eq_of_toNat_eq
  have h := w.isLt
  simp only [wordOfBytes, toNat_concat, highByte, lowByte, BitVec.extractLsb'_toNat, Nat.shiftRight_eq_div_pow]
  omega

/-- No word selects two rows of the opcode map: two rows that agreed where both masks look would overlap. -/
theorem instructionRows_disjoint :
    instructionRows.Pairwise (fun r q => r.pattern &&& q.mask ≠ q.pattern &&& r.mask) := by decide

end Sys2Proof
end

