-- ==== Sys2Proof/Laws/State.lean ====
section
/-! SUPPORT. One lemma per field for each state update, so that no proof unfolds a record update. -/

namespace Sys2Proof.Machine

/-! ### setReg -/

@[simp] theorem State.setReg_v (s : State) (r : Nibble) (b : Byte) : (s.setReg r b).v = s.v.set r.toNat b (nibble_lt r) := rfl
@[simp] theorem State.setReg_i (s : State) (r : Nibble) (b : Byte) : (s.setReg r b).i = s.i := rfl
@[simp] theorem State.setReg_pc (s : State) (r : Nibble) (b : Byte) : (s.setReg r b).pc = s.pc := rfl
@[simp] theorem State.setReg_stack (s : State) (r : Nibble) (b : Byte) : (s.setReg r b).stack = s.stack := rfl
@[simp] theorem State.setReg_sp (s : State) (r : Nibble) (b : Byte) : (s.setReg r b).sp = s.sp := rfl
@[simp] theorem State.setReg_dt (s : State) (r : Nibble) (b : Byte) : (s.setReg r b).dt = s.dt := rfl
@[simp] theorem State.setReg_st (s : State) (r : Nibble) (b : Byte) : (s.setReg r b).st = s.st := rfl
@[simp] theorem State.setReg_mem (s : State) (r : Nibble) (b : Byte) : (s.setReg r b).mem = s.mem := rfl
@[simp] theorem State.setReg_fb (s : State) (r : Nibble) (b : Byte) : (s.setReg r b).fb = s.fb := rfl
@[simp] theorem State.setReg_keys (s : State) (r : Nibble) (b : Byte) : (s.setReg r b).keys = s.keys := rfl
@[simp] theorem State.setReg_wk (s : State) (r : Nibble) (b : Byte) : (s.setReg r b).wk = s.wk := rfl
@[simp] theorem State.setReg_faultReg (s : State) (r : Nibble) (b : Byte) : (s.setReg r b).faultReg = s.faultReg := rfl
@[simp] theorem State.setReg_randIn (s : State) (r : Nibble) (b : Byte) : (s.setReg r b).randIn = s.randIn := rfl
@[simp] theorem State.setReg_draws (s : State) (r : Nibble) (b : Byte) : (s.setReg r b).draws = s.draws := rfl

/-! ### setFlagThenReg -/

@[simp] theorem State.setFlagThenReg_i (s : State) (f : Bool) (x : Nibble) (b : Byte) : (s.setFlagThenReg f x b).i = s.i := rfl
@[simp] theorem State.setFlagThenReg_pc (s : State) (f : Bool) (x : Nibble) (b : Byte) : (s.setFlagThenReg f x b).pc = s.pc := rfl
@[simp] theorem State.setFlagThenReg_stack (s : State) (f : Bool) (x : Nibble) (b : Byte) : (s.setFlagThenReg f x b).stack = s.stack := rfl
@[simp] theorem State.setFlagThenReg_sp (s : State) (f : Bool) (x : Nibble) (b : Byte) : (s.setFlagThenReg f x b).sp = s.sp := rfl
@[simp] theorem State.setFlagThenReg_dt (s : State) (f : Bool) (x : Nibble) (b : Byte) : (s.setFlagThenReg f x b).dt = s.dt := rfl
@[simp] theorem State.setFlagThenReg_st (s : State) (f : Bool) (x : Nibble) (b : Byte) : (s.setFlagThenReg f x b).st = s.st := rfl
@[simp] theorem State.setFlagThenReg_mem (s : State) (f : Bool) (x : Nibble) (b : Byte) : (s.setFlagThenReg f x b).mem = s.mem := rfl
@[simp] theorem State.setFlagThenReg_fb (s : State) (f : Bool) (x : Nibble) (b : Byte) : (s.setFlagThenReg f x b).fb = s.fb := rfl
@[simp] theorem State.setFlagThenReg_keys (s : State) (f : Bool) (x : Nibble) (b : Byte) : (s.setFlagThenReg f x b).keys = s.keys := rfl
@[simp] theorem State.setFlagThenReg_wk (s : State) (f : Bool) (x : Nibble) (b : Byte) : (s.setFlagThenReg f x b).wk = s.wk := rfl
@[simp] theorem State.setFlagThenReg_faultReg (s : State) (f : Bool) (x : Nibble) (b : Byte) : (s.setFlagThenReg f x b).faultReg = s.faultReg := rfl
@[simp] theorem State.setFlagThenReg_randIn (s : State) (f : Bool) (x : Nibble) (b : Byte) : (s.setFlagThenReg f x b).randIn = s.randIn := rfl
@[simp] theorem State.setFlagThenReg_draws (s : State) (f : Bool) (x : Nibble) (b : Byte) : (s.setFlagThenReg f x b).draws = s.draws := rfl

/-! ### setIndex -/

@[simp] theorem State.setIndex_v (s : State) (w : Word) : (s.setIndex w).v = s.v := rfl
@[simp] theorem State.setIndex_i (s : State) (w : Word) : (s.setIndex w).i = w := rfl
@[simp] theorem State.setIndex_pc (s : State) (w : Word) : (s.setIndex w).pc = s.pc := rfl
@[simp] theorem State.setIndex_stack (s : State) (w : Word) : (s.setIndex w).stack = s.stack := rfl
@[simp] theorem State.setIndex_sp (s : State) (w : Word) : (s.setIndex w).sp = s.sp := rfl
@[simp] theorem State.setIndex_dt (s : State) (w : Word) : (s.setIndex w).dt = s.dt := rfl
@[simp] theorem State.setIndex_st (s : State) (w : Word) : (s.setIndex w).st = s.st := rfl
@[simp] theorem State.setIndex_mem (s : State) (w : Word) : (s.setIndex w).mem = s.mem := rfl
@[simp] theorem State.setIndex_fb (s : State) (w : Word) : (s.setIndex w).fb = s.fb := rfl
@[simp] theorem State.setIndex_keys (s : State) (w : Word) : (s.setIndex w).keys = s.keys := rfl
@[simp] theorem State.setIndex_wk (s : State) (w : Word) : (s.setIndex w).wk = s.wk := rfl
@[simp] theorem State.setIndex_faultReg (s : State) (w : Word) : (s.setIndex w).faultReg = s.faultReg := rfl
@[simp] theorem State.setIndex_randIn (s : State) (w : Word) : (s.setIndex w).randIn = s.randIn := rfl
@[simp] theorem State.setIndex_draws (s : State) (w : Word) : (s.setIndex w).draws = s.draws := rfl

/-! ### setDt -/

@[simp] theorem State.setDt_v (s : State) (b : Byte) : (s.setDt b).v = s.v := rfl
@[simp] theorem State.setDt_i (s : State) (b : Byte) : (s.setDt b).i = s.i := rfl
@[simp] theorem State.setDt_pc (s : State) (b : Byte) : (s.setDt b).pc = s.pc := rfl
@[simp] theorem State.setDt_stack (s : State) (b : Byte) : (s.setDt b).stack = s.stack := rfl
@[simp] theorem State.setDt_sp (s : State) (b : Byte) : (s.setDt b).sp = s.sp := rfl
@[simp] theorem State.setDt_dt (s : State) (b : Byte) : (s.setDt b).dt = b := rfl
@[simp] theorem State.setDt_st (s : State) (b : Byte) : (s.setDt b).st = s.st := rfl
@[simp] theorem State.setDt_mem (s : State) (b : Byte) : (s.setDt b).mem = s.mem := rfl
@[simp] theorem State.setDt_fb (s : State) (b : Byte) : (s.setDt b).fb = s.fb := rfl
@[simp] theorem State.setDt_keys (s : State) (b : Byte) : (s.setDt b).keys = s.keys := rfl
@[simp] theorem State.setDt_wk (s : State) (b : Byte) : (s.setDt b).wk = s.wk := rfl
@[simp] theorem State.setDt_faultReg (s : State) (b : Byte) : (s.setDt b).faultReg = s.faultReg := rfl
@[simp] theorem State.setDt_randIn (s : State) (b : Byte) : (s.setDt b).randIn = s.randIn := rfl
@[simp] theorem State.setDt_draws (s : State) (b : Byte) : (s.setDt b).draws = s.draws := rfl

/-! ### setSt -/

@[simp] theorem State.setSt_v (s : State) (b : Byte) : (s.setSt b).v = s.v := rfl
@[simp] theorem State.setSt_i (s : State) (b : Byte) : (s.setSt b).i = s.i := rfl
@[simp] theorem State.setSt_pc (s : State) (b : Byte) : (s.setSt b).pc = s.pc := rfl
@[simp] theorem State.setSt_stack (s : State) (b : Byte) : (s.setSt b).stack = s.stack := rfl
@[simp] theorem State.setSt_sp (s : State) (b : Byte) : (s.setSt b).sp = s.sp := rfl
@[simp] theorem State.setSt_dt (s : State) (b : Byte) : (s.setSt b).dt = s.dt := rfl
@[simp] theorem State.setSt_st (s : State) (b : Byte) : (s.setSt b).st = b := rfl
@[simp] theorem State.setSt_mem (s : State) (b : Byte) : (s.setSt b).mem = s.mem := rfl
@[simp] theorem State.setSt_fb (s : State) (b : Byte) : (s.setSt b).fb = s.fb := rfl
@[simp] theorem State.setSt_keys (s : State) (b : Byte) : (s.setSt b).keys = s.keys := rfl
@[simp] theorem State.setSt_wk (s : State) (b : Byte) : (s.setSt b).wk = s.wk := rfl
@[simp] theorem State.setSt_faultReg (s : State) (b : Byte) : (s.setSt b).faultReg = s.faultReg := rfl
@[simp] theorem State.setSt_randIn (s : State) (b : Byte) : (s.setSt b).randIn = s.randIn := rfl
@[simp] theorem State.setSt_draws (s : State) (b : Byte) : (s.setSt b).draws = s.draws := rfl

/-! ### setMem -/

@[simp] theorem State.setMem_v (s : State) (m : Memory) : (s.setMem m).v = s.v := rfl
@[simp] theorem State.setMem_i (s : State) (m : Memory) : (s.setMem m).i = s.i := rfl
@[simp] theorem State.setMem_pc (s : State) (m : Memory) : (s.setMem m).pc = s.pc := rfl
@[simp] theorem State.setMem_stack (s : State) (m : Memory) : (s.setMem m).stack = s.stack := rfl
@[simp] theorem State.setMem_sp (s : State) (m : Memory) : (s.setMem m).sp = s.sp := rfl
@[simp] theorem State.setMem_dt (s : State) (m : Memory) : (s.setMem m).dt = s.dt := rfl
@[simp] theorem State.setMem_st (s : State) (m : Memory) : (s.setMem m).st = s.st := rfl
@[simp] theorem State.setMem_mem (s : State) (m : Memory) : (s.setMem m).mem = m := rfl
@[simp] theorem State.setMem_fb (s : State) (m : Memory) : (s.setMem m).fb = s.fb := rfl
@[simp] theorem State.setMem_keys (s : State) (m : Memory) : (s.setMem m).keys = s.keys := rfl
@[simp] theorem State.setMem_wk (s : State) (m : Memory) : (s.setMem m).wk = s.wk := rfl
@[simp] theorem State.setMem_faultReg (s : State) (m : Memory) : (s.setMem m).faultReg = s.faultReg := rfl
@[simp] theorem State.setMem_randIn (s : State) (m : Memory) : (s.setMem m).randIn = s.randIn := rfl
@[simp] theorem State.setMem_draws (s : State) (m : Memory) : (s.setMem m).draws = s.draws := rfl

/-! ### setFb -/

@[simp] theorem State.setFb_v (s : State) (fb : Framebuffer) : (s.setFb fb).v = s.v := rfl
@[simp] theorem State.setFb_i (s : State) (fb : Framebuffer) : (s.setFb fb).i = s.i := rfl
@[simp] theorem State.setFb_pc (s : State) (fb : Framebuffer) : (s.setFb fb).pc = s.pc := rfl
@[simp] theorem State.setFb_stack (s : State) (fb : Framebuffer) : (s.setFb fb).stack = s.stack := rfl
@[simp] theorem State.setFb_sp (s : State) (fb : Framebuffer) : (s.setFb fb).sp = s.sp := rfl
@[simp] theorem State.setFb_dt (s : State) (fb : Framebuffer) : (s.setFb fb).dt = s.dt := rfl
@[simp] theorem State.setFb_st (s : State) (fb : Framebuffer) : (s.setFb fb).st = s.st := rfl
@[simp] theorem State.setFb_mem (s : State) (fb : Framebuffer) : (s.setFb fb).mem = s.mem := rfl
@[simp] theorem State.setFb_fb (s : State) (fb : Framebuffer) : (s.setFb fb).fb = fb := rfl
@[simp] theorem State.setFb_keys (s : State) (fb : Framebuffer) : (s.setFb fb).keys = s.keys := rfl
@[simp] theorem State.setFb_wk (s : State) (fb : Framebuffer) : (s.setFb fb).wk = s.wk := rfl
@[simp] theorem State.setFb_faultReg (s : State) (fb : Framebuffer) : (s.setFb fb).faultReg = s.faultReg := rfl
@[simp] theorem State.setFb_randIn (s : State) (fb : Framebuffer) : (s.setFb fb).randIn = s.randIn := rfl
@[simp] theorem State.setFb_draws (s : State) (fb : Framebuffer) : (s.setFb fb).draws = s.draws := rfl

/-! ### setWk -/

@[simp] theorem State.setWk_v (s : State) (k : WaitKey) : (s.setWk k).v = s.v := rfl
@[simp] theorem State.setWk_i (s : State) (k : WaitKey) : (s.setWk k).i = s.i := rfl
@[simp] theorem State.setWk_pc (s : State) (k : WaitKey) : (s.setWk k).pc = s.pc := rfl
@[simp] theorem State.setWk_stack (s : State) (k : WaitKey) : (s.setWk k).stack = s.stack := rfl
@[simp] theorem State.setWk_sp (s : State) (k : WaitKey) : (s.setWk k).sp = s.sp := rfl
@[simp] theorem State.setWk_dt (s : State) (k : WaitKey) : (s.setWk k).dt = s.dt := rfl
@[simp] theorem State.setWk_st (s : State) (k : WaitKey) : (s.setWk k).st = s.st := rfl
@[simp] theorem State.setWk_mem (s : State) (k : WaitKey) : (s.setWk k).mem = s.mem := rfl
@[simp] theorem State.setWk_fb (s : State) (k : WaitKey) : (s.setWk k).fb = s.fb := rfl
@[simp] theorem State.setWk_keys (s : State) (k : WaitKey) : (s.setWk k).keys = s.keys := rfl
@[simp] theorem State.setWk_wk (s : State) (k : WaitKey) : (s.setWk k).wk = k := rfl
@[simp] theorem State.setWk_faultReg (s : State) (k : WaitKey) : (s.setWk k).faultReg = s.faultReg := rfl
@[simp] theorem State.setWk_randIn (s : State) (k : WaitKey) : (s.setWk k).randIn = s.randIn := rfl
@[simp] theorem State.setWk_draws (s : State) (k : WaitKey) : (s.setWk k).draws = s.draws := rfl

/-! ### setKeys -/

@[simp] theorem State.setKeys_v (s : State) (ks : Vector Bool 16) : (s.setKeys ks).v = s.v := rfl
@[simp] theorem State.setKeys_i (s : State) (ks : Vector Bool 16) : (s.setKeys ks).i = s.i := rfl
@[simp] theorem State.setKeys_pc (s : State) (ks : Vector Bool 16) : (s.setKeys ks).pc = s.pc := rfl
@[simp] theorem State.setKeys_stack (s : State) (ks : Vector Bool 16) : (s.setKeys ks).stack = s.stack := rfl
@[simp] theorem State.setKeys_sp (s : State) (ks : Vector Bool 16) : (s.setKeys ks).sp = s.sp := rfl
@[simp] theorem State.setKeys_dt (s : State) (ks : Vector Bool 16) : (s.setKeys ks).dt = s.dt := rfl
@[simp] theorem State.setKeys_st (s : State) (ks : Vector Bool 16) : (s.setKeys ks).st = s.st := rfl
@[simp] theorem State.setKeys_mem (s : State) (ks : Vector Bool 16) : (s.setKeys ks).mem = s.mem := rfl
@[simp] theorem State.setKeys_fb (s : State) (ks : Vector Bool 16) : (s.setKeys ks).fb = s.fb := rfl
@[simp] theorem State.setKeys_keys (s : State) (ks : Vector Bool 16) : (s.setKeys ks).keys = ks := rfl
@[simp] theorem State.setKeys_wk (s : State) (ks : Vector Bool 16) : (s.setKeys ks).wk = s.wk := rfl
@[simp] theorem State.setKeys_faultReg (s : State) (ks : Vector Bool 16) : (s.setKeys ks).faultReg = s.faultReg := rfl
@[simp] theorem State.setKeys_randIn (s : State) (ks : Vector Bool 16) : (s.setKeys ks).randIn = s.randIn := rfl
@[simp] theorem State.setKeys_draws (s : State) (ks : Vector Bool 16) : (s.setKeys ks).draws = s.draws := rfl

/-! ### advance -/

@[simp] theorem State.advance_v (s : State) : (s.advance).v = s.v := rfl
@[simp] theorem State.advance_i (s : State) : (s.advance).i = s.i := rfl
@[simp] theorem State.advance_pc (s : State) : (s.advance).pc = s.pc + 2 := rfl
@[simp] theorem State.advance_stack (s : State) : (s.advance).stack = s.stack := rfl
@[simp] theorem State.advance_sp (s : State) : (s.advance).sp = s.sp := rfl
@[simp] theorem State.advance_dt (s : State) : (s.advance).dt = s.dt := rfl
@[simp] theorem State.advance_st (s : State) : (s.advance).st = s.st := rfl
@[simp] theorem State.advance_mem (s : State) : (s.advance).mem = s.mem := rfl
@[simp] theorem State.advance_fb (s : State) : (s.advance).fb = s.fb := rfl
@[simp] theorem State.advance_keys (s : State) : (s.advance).keys = s.keys := rfl
@[simp] theorem State.advance_wk (s : State) : (s.advance).wk = s.wk := rfl
@[simp] theorem State.advance_faultReg (s : State) : (s.advance).faultReg = s.faultReg := rfl
@[simp] theorem State.advance_randIn (s : State) : (s.advance).randIn = s.randIn := rfl
@[simp] theorem State.advance_draws (s : State) : (s.advance).draws = s.draws := rfl

/-! ### rewind -/

@[simp] theorem State.rewind_v (s : State) : (s.rewind).v = s.v := rfl
@[simp] theorem State.rewind_i (s : State) : (s.rewind).i = s.i := rfl
@[simp] theorem State.rewind_pc (s : State) : (s.rewind).pc = s.pc - 2 := rfl
@[simp] theorem State.rewind_stack (s : State) : (s.rewind).stack = s.stack := rfl
@[simp] theorem State.rewind_sp (s : State) : (s.rewind).sp = s.sp := rfl
@[simp] theorem State.rewind_dt (s : State) : (s.rewind).dt = s.dt := rfl
@[simp] theorem State.rewind_st (s : State) : (s.rewind).st = s.st := rfl
@[simp] theorem State.rewind_mem (s : State) : (s.rewind).mem = s.mem := rfl
@[simp] theorem State.rewind_fb (s : State) : (s.rewind).fb = s.fb := rfl
@[simp] theorem State.rewind_keys (s : State) : (s.rewind).keys = s.keys := rfl
@[simp] theorem State.rewind_wk (s : State) : (s.rewind).wk = s.wk := rfl
@[simp] theorem State.rewind_faultReg (s : State) : (s.rewind).faultReg = s.faultReg := rfl
@[simp] theorem State.rewind_randIn (s : State) : (s.rewind).randIn = s.randIn := rfl
@[simp] theorem State.rewind_draws (s : State) : (s.rewind).draws = s.draws := rfl

/-! ### jump -/

@[simp] theorem State.jump_v (s : State) (target : Word) : (s.jump target).v = s.v := rfl
@[simp] theorem State.jump_i (s : State) (target : Word) : (s.jump target).i = s.i := rfl
@[simp] theorem State.jump_pc (s : State) (target : Word) : (s.jump target).pc = target := rfl
@[simp] theorem State.jump_stack (s : State) (target : Word) : (s.jump target).stack = s.stack := rfl
@[simp] theorem State.jump_sp (s : State) (target : Word) : (s.jump target).sp = s.sp := rfl
@[simp] theorem State.jump_dt (s : State) (target : Word) : (s.jump target).dt = s.dt := rfl
@[simp] theorem State.jump_st (s : State) (target : Word) : (s.jump target).st = s.st := rfl
@[simp] theorem State.jump_mem (s : State) (target : Word) : (s.jump target).mem = s.mem := rfl
@[simp] theorem State.jump_fb (s : State) (target : Word) : (s.jump target).fb = s.fb := rfl
@[simp] theorem State.jump_keys (s : State) (target : Word) : (s.jump target).keys = s.keys := rfl
@[simp] theorem State.jump_wk (s : State) (target : Word) : (s.jump target).wk = s.wk := rfl
@[simp] theorem State.jump_faultReg (s : State) (target : Word) : (s.jump target).faultReg = s.faultReg := rfl
@[simp] theorem State.jump_randIn (s : State) (target : Word) : (s.jump target).randIn = s.randIn := rfl
@[simp] theorem State.jump_draws (s : State) (target : Word) : (s.jump target).draws = s.draws := rfl

/-! ### drawn -/

@[simp] theorem State.drawn_v (s : State) : (s.drawn).v = s.v := rfl
@[simp] theorem State.drawn_i (s : State) : (s.drawn).i = s.i := rfl
@[simp] theorem State.drawn_pc (s : State) : (s.drawn).pc = s.pc := rfl
@[simp] theorem State.drawn_stack (s : State) : (s.drawn).stack = s.stack := rfl
@[simp] theorem State.drawn_sp (s : State) : (s.drawn).sp = s.sp := rfl
@[simp] theorem State.drawn_dt (s : State) : (s.drawn).dt = s.dt := rfl
@[simp] theorem State.drawn_st (s : State) : (s.drawn).st = s.st := rfl
@[simp] theorem State.drawn_mem (s : State) : (s.drawn).mem = s.mem := rfl
@[simp] theorem State.drawn_fb (s : State) : (s.drawn).fb = s.fb := rfl
@[simp] theorem State.drawn_keys (s : State) : (s.drawn).keys = s.keys := rfl
@[simp] theorem State.drawn_wk (s : State) : (s.drawn).wk = s.wk := rfl
@[simp] theorem State.drawn_faultReg (s : State) : (s.drawn).faultReg = s.faultReg := rfl
@[simp] theorem State.drawn_randIn (s : State) : (s.drawn).randIn = none := rfl
@[simp] theorem State.drawn_draws (s : State) : (s.drawn).draws = s.draws + 1 := rfl

/-! ### takeFault -/

@[simp] theorem State.takeFault_v (s : State) (w : Word) (e : Raise) : (s.takeFault w e).v = s.v := rfl
@[simp] theorem State.takeFault_i (s : State) (w : Word) (e : Raise) : (s.takeFault w e).i = s.i := rfl
@[simp] theorem State.takeFault_pc (s : State) (w : Word) (e : Raise) : (s.takeFault w e).pc = s.pc := rfl
@[simp] theorem State.takeFault_stack (s : State) (w : Word) (e : Raise) : (s.takeFault w e).stack = s.stack := rfl
@[simp] theorem State.takeFault_sp (s : State) (w : Word) (e : Raise) : (s.takeFault w e).sp = s.sp := rfl
@[simp] theorem State.takeFault_dt (s : State) (w : Word) (e : Raise) : (s.takeFault w e).dt = s.dt := rfl
@[simp] theorem State.takeFault_st (s : State) (w : Word) (e : Raise) : (s.takeFault w e).st = s.st := rfl
@[simp] theorem State.takeFault_mem (s : State) (w : Word) (e : Raise) : (s.takeFault w e).mem = s.mem := rfl
@[simp] theorem State.takeFault_fb (s : State) (w : Word) (e : Raise) : (s.takeFault w e).fb = s.fb := rfl
@[simp] theorem State.takeFault_keys (s : State) (w : Word) (e : Raise) : (s.takeFault w e).keys = s.keys := rfl
@[simp] theorem State.takeFault_wk (s : State) (w : Word) (e : Raise) : (s.takeFault w e).wk = s.wk := rfl
@[simp] theorem State.takeFault_faultReg (s : State) (w : Word) (e : Raise) : (s.takeFault w e).faultReg = ⟨e.cause, s.pc, w, e.info⟩ := rfl
@[simp] theorem State.takeFault_randIn (s : State) (w : Word) (e : Raise) : (s.takeFault w e).randIn = s.randIn := rfl
@[simp] theorem State.takeFault_draws (s : State) (w : Word) (e : Raise) : (s.takeFault w e).draws = s.draws := rfl

/-! ### raiseIn -/

@[simp] theorem State.raiseIn_v (s : State) (i : Instr) (e : Raise) : (s.raiseIn i e).v = s.v := rfl
@[simp] theorem State.raiseIn_i (s : State) (i : Instr) (e : Raise) : (s.raiseIn i e).i = s.i := rfl
@[simp] theorem State.raiseIn_pc (s : State) (i : Instr) (e : Raise) : (s.raiseIn i e).pc = s.pc - 2 := rfl
@[simp] theorem State.raiseIn_stack (s : State) (i : Instr) (e : Raise) : (s.raiseIn i e).stack = s.stack := rfl
@[simp] theorem State.raiseIn_sp (s : State) (i : Instr) (e : Raise) : (s.raiseIn i e).sp = s.sp := rfl
@[simp] theorem State.raiseIn_dt (s : State) (i : Instr) (e : Raise) : (s.raiseIn i e).dt = s.dt := rfl
@[simp] theorem State.raiseIn_st (s : State) (i : Instr) (e : Raise) : (s.raiseIn i e).st = s.st := rfl
@[simp] theorem State.raiseIn_mem (s : State) (i : Instr) (e : Raise) : (s.raiseIn i e).mem = s.mem := rfl
@[simp] theorem State.raiseIn_fb (s : State) (i : Instr) (e : Raise) : (s.raiseIn i e).fb = s.fb := rfl
@[simp] theorem State.raiseIn_keys (s : State) (i : Instr) (e : Raise) : (s.raiseIn i e).keys = s.keys := rfl
@[simp] theorem State.raiseIn_wk (s : State) (i : Instr) (e : Raise) : (s.raiseIn i e).wk = s.wk := rfl
@[simp] theorem State.raiseIn_faultReg (s : State) (i : Instr) (e : Raise) : (s.raiseIn i e).faultReg = ⟨e.cause, s.pc - 2, encode i, e.info⟩ := rfl
@[simp] theorem State.raiseIn_randIn (s : State) (i : Instr) (e : Raise) : (s.raiseIn i e).randIn = s.randIn := rfl
@[simp] theorem State.raiseIn_draws (s : State) (i : Instr) (e : Raise) : (s.raiseIn i e).draws = s.draws := rfl

/-! ### tick -/

@[simp] theorem tick_v (s : State) : (tick s).v = s.v := rfl
@[simp] theorem tick_i (s : State) : (tick s).i = s.i := rfl
@[simp] theorem tick_pc (s : State) : (tick s).pc = s.pc := rfl
@[simp] theorem tick_stack (s : State) : (tick s).stack = s.stack := rfl
@[simp] theorem tick_sp (s : State) : (tick s).sp = s.sp := rfl
@[simp] theorem tick_dt (s : State) : (tick s).dt = countDown s.dt := rfl
@[simp] theorem tick_st (s : State) : (tick s).st = countDown s.st := rfl
@[simp] theorem tick_mem (s : State) : (tick s).mem = s.mem := rfl
@[simp] theorem tick_fb (s : State) : (tick s).fb = s.fb := rfl
@[simp] theorem tick_keys (s : State) : (tick s).keys = s.keys := rfl
@[simp] theorem tick_wk (s : State) : (tick s).wk = s.wk := rfl
@[simp] theorem tick_faultReg (s : State) : (tick s).faultReg = s.faultReg := rfl
@[simp] theorem tick_randIn (s : State) : (tick s).randIn = s.randIn := rfl
@[simp] theorem tick_draws (s : State) : (tick s).draws = s.draws := rfl

/-! ### skipIf -/

@[simp] theorem State.skipIf_v (s : State) (c : Bool) : (s.skipIf c).v = s.v := by
  cases c <;> rfl
@[simp] theorem State.skipIf_i (s : State) (c : Bool) : (s.skipIf c).i = s.i := by
  cases c <;> rfl
@[simp] theorem State.skipIf_pc (s : State) (c : Bool) : (s.skipIf c).pc = if c then s.pc + 2 else s.pc := by
  cases c <;> rfl
@[simp] theorem State.skipIf_stack (s : State) (c : Bool) : (s.skipIf c).stack = s.stack := by
  cases c <;> rfl
@[simp] theorem State.skipIf_sp (s : State) (c : Bool) : (s.skipIf c).sp = s.sp := by
  cases c <;> rfl
@[simp] theorem State.skipIf_dt (s : State) (c : Bool) : (s.skipIf c).dt = s.dt := by
  cases c <;> rfl
@[simp] theorem State.skipIf_st (s : State) (c : Bool) : (s.skipIf c).st = s.st := by
  cases c <;> rfl
@[simp] theorem State.skipIf_mem (s : State) (c : Bool) : (s.skipIf c).mem = s.mem := by
  cases c <;> rfl
@[simp] theorem State.skipIf_fb (s : State) (c : Bool) : (s.skipIf c).fb = s.fb := by
  cases c <;> rfl
@[simp] theorem State.skipIf_keys (s : State) (c : Bool) : (s.skipIf c).keys = s.keys := by
  cases c <;> rfl
@[simp] theorem State.skipIf_wk (s : State) (c : Bool) : (s.skipIf c).wk = s.wk := by
  cases c <;> rfl
@[simp] theorem State.skipIf_faultReg (s : State) (c : Bool) : (s.skipIf c).faultReg = s.faultReg := by
  cases c <;> rfl
@[simp] theorem State.skipIf_randIn (s : State) (c : Bool) : (s.skipIf c).randIn = s.randIn := by
  cases c <;> rfl
@[simp] theorem State.skipIf_draws (s : State) (c : Bool) : (s.skipIf c).draws = s.draws := by
  cases c <;> rfl

/-- Taking back the cycle's advance gives the state of the start of the cycle (40_cycle_dispatch.md R90). -/
@[simp] theorem State.advance_rewind (s : State) : s.advance.rewind = s := by
  simp [State.advance, State.rewind]

end Sys2Proof.Machine
end

