-- ==== Sys2Proof/Laws/Registers.lean ====
section
/-! SUPPORT. What reading a register gives after each register write: `setReg`, `setFlagThenReg`, `setRegs`, and the
updates that write no register. -/

namespace Sys2Proof.Machine

/-- A register read depends on the register file alone. -/
theorem State.reg_congr {s t : State} (h : t.v = s.v) (r : Nibble) : t.reg r = s.reg r := by
  simp [State.reg, h]

/-- A register write is seen at its own index and at no other. -/
@[simp] theorem State.reg_setReg (s : State) (r q : Nibble) (b : Byte) :
    (s.setReg r b).reg q = if q = r then b else s.reg q := by
  by_cases h : q = r
  · subst h
    simp [State.reg, State.setReg]
  · have hne : r.toNat ≠ q.toNat := fun e => h (BitVec.eq_of_toNat_eq e.symm)
    simp [State.reg, State.setReg, h, Vector.getElem_set_ne, hne]

/-- Flag first, destination last: the destination wins where it is VF (D6). -/
@[simp] theorem State.reg_setFlagThenReg (s : State) (f : Bool) (x q : Nibble) (b : Byte) :
    (s.setFlagThenReg f x b).reg q = if q = x then b else if q = vf then flagByte f else s.reg q := by
  simp [State.setFlagThenReg]

@[simp] theorem State.reg_setIndex (s : State) (w : Word) (r : Nibble) : (s.setIndex w).reg r = s.reg r := rfl
@[simp] theorem State.reg_setDt (s : State) (b : Byte) (r : Nibble) : (s.setDt b).reg r = s.reg r := rfl
@[simp] theorem State.reg_setSt (s : State) (b : Byte) (r : Nibble) : (s.setSt b).reg r = s.reg r := rfl
@[simp] theorem State.reg_setMem (s : State) (m : Memory) (r : Nibble) : (s.setMem m).reg r = s.reg r := rfl
@[simp] theorem State.reg_setFb (s : State) (fb : Framebuffer) (r : Nibble) : (s.setFb fb).reg r = s.reg r := rfl
@[simp] theorem State.reg_setWk (s : State) (k : WaitKey) (r : Nibble) : (s.setWk k).reg r = s.reg r := rfl
@[simp] theorem State.reg_setKeys (s : State) (ks : Vector Bool 16) (r : Nibble) : (s.setKeys ks).reg r = s.reg r := rfl
@[simp] theorem State.reg_advance (s : State) (r : Nibble) : s.advance.reg r = s.reg r := rfl
@[simp] theorem State.reg_rewind (s : State) (r : Nibble) : s.rewind.reg r = s.reg r := rfl
@[simp] theorem State.reg_jump (s : State) (w : Word) (r : Nibble) : (s.jump w).reg r = s.reg r := rfl
@[simp] theorem State.reg_drawn (s : State) (r : Nibble) : s.drawn.reg r = s.reg r := rfl
@[simp] theorem State.reg_tick (s : State) (r : Nibble) : (tick s).reg r = s.reg r := rfl
@[simp] theorem State.reg_takeFault (s : State) (w : Word) (e : Raise) (r : Nibble) :
    (s.takeFault w e).reg r = s.reg r := rfl
@[simp] theorem State.reg_raiseIn (s : State) (i : Instr) (e : Raise) (r : Nibble) :
    (s.raiseIn i e).reg r = s.reg r := rfl
@[simp] theorem State.reg_skipIf (s : State) (c : Bool) (r : Nibble) : (s.skipIf c).reg r = s.reg r :=
  State.reg_congr (by simp) r

/-- `setRegs` writes nothing but registers. -/
theorem setRegs_eq (bs : List Byte) : ∀ (k : Nat) (s : State), setRegs k bs s = { s with v := (setRegs k bs s).v } := by
  induction bs with
  | nil => intro k s; rfl
  | cons b bs ih => intro k s; exact ih (k + 1) (s.setReg _ b)

/-- `setRegs` writes byte `j` of its list to register `k + j`, and no other register. -/
theorem reg_setRegs (bs : List Byte) : ∀ (k : Nat) (s : State) (r : Nibble), k + bs.length ≤ 16 →
    (setRegs k bs s).reg r
      = if k ≤ r.toNat ∧ r.toNat < k + bs.length then bs.getD (r.toNat - k) 0 else s.reg r := by
  induction bs with
  | nil =>
    intro k s r _
    simp [setRegs]
  | cons b bs ih =>
    intro k s r hk
    simp only [List.length_cons] at hk
    have hkk : (BitVec.ofNat 4 k).toNat = k := by
      rw [BitVec.toNat_ofNat]
      omega
    have heq : r = BitVec.ofNat 4 k ↔ r.toNat = k := by
      rw [← BitVec.toNat_inj, hkk]
    simp only [setRegs]
    rw [ih (k + 1) _ r (by omega), State.reg_setReg]
    simp only [heq, List.length_cons]
    by_cases h1 : r.toNat = k
    · rw [if_neg (by omega), if_pos h1, if_pos (by omega)]
      simp [h1]
    · by_cases h2 : k + 1 ≤ r.toNat ∧ r.toNat < k + 1 + bs.length
      · rw [if_pos h2, if_pos (by omega)]
        have : r.toNat - k = (r.toNat - (k + 1)) + 1 := by omega
        simp [this]
      · rw [if_neg h2, if_neg h1, if_neg (by omega)]

/-- `firstRegs n` lists `V[0]` to `V[n - 1]`. -/
@[simp] theorem State.length_firstRegs (s : State) (n : Nat) : (s.firstRegs n).length = min n 16 := by
  simp [State.firstRegs]

/-- Byte `k` of `firstRegs n` is `V[k]`. -/
theorem State.getD_firstRegs (s : State) (n : Nat) (r : Nibble) (h : r.toNat < n) :
    (s.firstRegs n).getD r.toNat 0 = s.reg r := by
  have := nibble_lt r
  simp [State.firstRegs, State.reg, List.getD_eq_getElem?_getD, h, this]

end Sys2Proof.Machine
end

