-- ==== Sys2Proof/Laws/Ops.lean ====
section
/-! SUPPORT. One lemma per shared operation that says everything it can do under this hardware's parameters. -/

namespace Sys2Proof.Machine

@[simp] theorem hw_rangePolicy : hw.rangePolicy = .fault := rfl
@[simp] theorem hw_edgePolicy : hw.edgePolicy = .clip := rfl
@[simp] theorem hw_shiftSrc : hw.shiftSrc = .y := rfl

/-- The parameters meet what 00_scope.md R7 and 10_state.md R30 ask of the font. -/
theorem hw_wellFormed : hw.wellFormed = true := by decide

/-- `complete` always answers a next state: the rule's, or the fault taken. -/
theorem complete_cases {i : Instr} {s t : State} {r : Except Raise State} (h : complete i s r = .next t) :
    r = .ok t ∨ ∃ e, r = .error e ∧ t = s.raiseIn i e := by
  cases r with
  | ok u => left; cases h; rfl
  | error e => right; cases h; exact ⟨e, rfl, rfl⟩

/-- A stack write is seen at its own slot and at no other. -/
theorem stack_set (st : Vector Word 16) (k j : Fin 16) (w : Word) :
    (st.set k w)[j] = if j = k then w else st[j] := by
  show (st.set k.val w k.isLt)[j.val] = _
  rw [Vector.getElem_set]
  by_cases h : j = k
  · simp [h]
  · have : k.val ≠ j.val := fun e => h (Fin.ext e.symm)
    simp [h, this]

/-- RET's pop answers on a stack that is not empty. -/
theorem popPc_ok (s : State) (h : s.sp ≠ 0) :
    popPc .fault s = .ok { s with pc := s.stack[slot s.sp], sp := s.sp - 1 } := by
  simpa [popPc] using h

/-- RET's pop raises StackUnderflow on the empty stack. -/
theorem popPc_empty (s : State) (h : s.sp = 0) : popPc .fault s = .error ⟨.stackUnderflow, 0⟩ := by
  simp [popPc, h]

/-- CALL's push answers below slot 15. -/
theorem pushPc_ok (w : Word) (s : State) (h : s.sp.toNat < 15) :
    pushPc .fault w s = .ok { s with sp := s.sp + 1, stack := s.stack.set (slot (s.sp + 1)) s.pc, pc := w } := by
  unfold pushPc
  rw [if_neg]
  rintro ⟨-, h'⟩
  omega

/-- CALL's push raises StackOverflow at slot 15 and above. -/
theorem pushPc_full (w : Word) (s : State) (h : 15 ≤ s.sp.toNat) :
    pushPc .fault w s = .error ⟨.stackOverflow, s.sp.setWidth 16⟩ := by
  unfold pushPc
  rw [if_pos]
  exact ⟨rfl, by omega⟩

/-- A key index below 16 reads that key's flag. -/
theorem keyRead_ok (p : RangePolicy) (s : State) (b : Byte) (h : b.toNat < 16) :
    keyRead p s b = .ok s.keys[b.toNat] := by
  simp [keyRead, h, Nat.mod_eq_of_lt h]

/-- A key index of 16 or more raises KeyRange. -/
theorem keyRead_out_of_range (s : State) (b : Byte) (h : 16 ≤ b.toNat) :
    keyRead .fault s b = .error ⟨.keyRange, b.setWidth 16⟩ := by
  simp [keyRead, Nat.not_lt.mpr h]

/-- A key skip answers the skip, or raises KeyRange. -/
theorem skipOnKey_cases (x : Nibble) (want : Bool) (s : State) :
    ((∃ c, skipOnKey .fault x want s = .ok (s.skipIf c)) ∧ (s.reg x).toNat < 16) ∨
      (skipOnKey .fault x want s = .error ⟨.keyRange, (s.reg x).setWidth 16⟩ ∧ 16 ≤ (s.reg x).toNat) := by
  by_cases h : (s.reg x).toNat < 16
  · exact Or.inl ⟨⟨s.keys[(s.reg x).toNat] == want, by simp [skipOnKey, keyRead_ok _ _ _ h]⟩, h⟩
  · exact Or.inr ⟨by simp [skipOnKey, keyRead_out_of_range s _ (Nat.le_of_not_lt h)], Nat.le_of_not_lt h⟩

/-- Inside memory `storeAtIndex` answers the state with the bytes stored from I on, and nothing else changed. -/
theorem storeAtIndex_ok (p : RangePolicy) (bs : List Byte) (s : State) (h : s.i.toNat + bs.length ≤ memSize) :
    ∃ m, storeAtIndex p bs s = .ok (s.setMem m) ∧ ∀ a, m.read a =
      if s.i.toNat ≤ a ∧ a < s.i.toNat + bs.length then bs.getD (a - s.i.toNat) 0 else s.mem.read a := by
  obtain ⟨m, h1, h2⟩ := storeBytes_in_range p bs s.i.toNat s.mem h
  exact ⟨m, by simp [storeAtIndex, h1], h2⟩

/-- Past the end of memory `storeAtIndex` raises MemRange at the first out-of-range address. -/
theorem storeAtIndex_out_of_range (bs : List Byte) (s : State) (hne : bs ≠ [])
    (h : memSize < s.i.toNat + bs.length) :
    storeAtIndex .fault bs s = .error ⟨.memRange, BitVec.ofNat 16 (max s.i.toNat memSize)⟩ := by
  simp [storeAtIndex, storeBytes_out_of_range bs _ _ hne h]

/-- Inside memory `loadFromIndex` answers the state with `V[0]` to `V[n - 1]` loaded from I on. -/
theorem loadFromIndex_ok (p : RangePolicy) (n : Nat) (s : State) (h : s.i.toNat + n ≤ memSize) (hn : n ≤ 16) :
    ∃ t, loadFromIndex p n s = .ok t ∧ t = { s with v := t.v } ∧ ∀ r : Nibble, t.reg r =
      if r.toNat < n then s.mem.read (s.i.toNat + r.toNat) else s.reg r := by
  refine ⟨setRegs 0 ((List.range n).map fun j => s.mem.read (s.i.toNat + j)) s,
    by simp only [loadFromIndex, loadBytes_in_range p s.mem n _ h], setRegs_eq _ _ _, fun r => ?_⟩
  rw [reg_setRegs _ _ _ _ (by simpa using hn)]
  simp only [List.length_map, List.length_range, Nat.zero_le, true_and, Nat.zero_add, Nat.sub_zero]
  split
  · rename_i hr
    simp [List.getD_eq_getElem?_getD, hr]
  · rfl

/-- Past the end of memory `loadFromIndex` raises MemRange at the first out-of-range address. -/
theorem loadFromIndex_out_of_range (n : Nat) (s : State) (hn : 0 < n) (h : memSize < s.i.toNat + n) :
    loadFromIndex .fault n s = .error ⟨.memRange, BitVec.ofNat 16 (max s.i.toNat memSize)⟩ := by
  simp [loadFromIndex, loadBytes_out_of_range s.mem n _ hn h]

/-- A draw that reads nothing, or only inside memory, answers, and then each pixel the sprite covers is toggled, VF is the
collision, and nothing else changed. -/
theorem drawSprite_ok (x y n : Nibble) (s : State) (h : n = 0 ∨ s.i.toNat + n.toNat ≤ memSize) :
    ∃ fb hit, drawSprite hw x y n s = .ok ((s.setReg vf (flagByte hit)).setFb fb) ∧
      (∀ px py, fb.pixel px py = (s.fb.pixel px py ^^ spriteCovers s x y n px py)) ∧
      (hit = true ↔ ∃ px py, spriteCovers s x y n px py = true ∧ s.fb.pixel px py = true) := by
  obtain ⟨d, h1, h2, h3⟩ := drawRows_clip hw rfl s.mem s.i.toNat ((s.reg x).toNat % 64) ((s.reg y).toNat % 32)
    (List.range n.toNat) List.nodup_range
    (fun r hr => by
      have hr := List.mem_range.mp hr
      rcases h with rfl | h
      · exact absurd hr (Nat.not_lt_zero r)
      · omega) ⟨s.fb, false⟩
  refine ⟨d.fb, d.hit, by simp [drawSprite, h1], ?_, ?_⟩
  · simpa [rowsCover_eq_spriteCovers] using h2
  · simpa [rowsCover_eq_spriteCovers] using h3

/-- A draw that reads past the end of memory raises MemRange at the first out-of-range address. -/
theorem drawSprite_out_of_range (x y n : Nibble) (s : State) (hn : n ≠ 0) (h : memSize < s.i.toNat + n.toNat) :
    drawSprite hw x y n s = .error ⟨.memRange, BitVec.ofNat 16 (max s.i.toNat memSize)⟩ := by
  have hpos : 0 < n.toNat := by
    rcases Nat.eq_zero_or_pos n.toNat with h0 | h0
    · exact absurd (BitVec.eq_of_toNat_eq (by simpa using h0)) hn
    · exact h0
  have := drawRows_out_of_range hw rfl rfl s.mem s.i.toNat ((s.reg x).toNat % 64) ((s.reg y).toNat % 32)
    n.toNat 0 ⟨s.fb, false⟩ hpos (by omega)
  rw [← List.range_eq_range', Nat.add_zero] at this
  simp [drawSprite, this]

/-- The lowest pressed key, where one is pressed (44_keypad_timers.md R184, D10). -/
theorem lowestKey_some {keys : Vector Bool 16} {k : Fin 16} :
    lowestKey keys = some k ↔ keys[k] = true ∧ ∀ j : Fin 16, j < k → keys[j] = false := by
  unfold lowestKey
  constructor
  · intro h
    obtain ⟨hk, as, bs, hab, hno⟩ := List.find?_eq_some_iff_append.mp h
    refine ⟨hk, fun j hj => ?_⟩
    have hmem : j ∈ List.finRange 16 := List.mem_finRange j
    have hsort : (as ++ k :: bs).Pairwise (· < ·) := hab ▸ List.pairwise_lt_finRange 16
    rw [hab] at hmem
    rcases List.mem_append.mp hmem with hm | hm
    · simpa using hno j hm
    · exfalso
      rcases List.mem_cons.mp hm with rfl | hm
      · exact absurd hj (lt_irrefl _)
      · have := (List.pairwise_cons.mp (List.pairwise_append.mp hsort).2.1).1 j hm
        exact absurd hj (lt_asymm this)
  · rintro ⟨hk, hno⟩
    cases h : (List.finRange 16).find? (fun j => keys[j]) with
    | none => exact absurd hk (by simpa using List.find?_eq_none.mp h k (List.mem_finRange k))
    | some j =>
      have hj : keys[j] = true := by simpa using List.find?_some h
      obtain ⟨_, as, bs, hab, hno'⟩ := List.find?_eq_some_iff_append.mp h
      have hsort : (as ++ j :: bs).Pairwise (· < ·) := hab ▸ List.pairwise_lt_finRange 16
      have hmem : k ∈ List.finRange 16 := List.mem_finRange k
      rw [hab] at hmem
      rcases List.mem_append.mp hmem with hm | hm
      · have := hno' k hm
        simp [hk] at this
      · rcases List.mem_cons.mp hm with rfl | hm
        · rfl
        · have := (List.pairwise_cons.mp (List.pairwise_append.mp hsort).2.1).1 k hm
          rw [hno j this] at hj
          cases hj

/-- No key is pressed. -/
theorem lowestKey_none {keys : Vector Bool 16} : lowestKey keys = none ↔ ∀ k : Fin 16, keys[k] = false := by
  simp [lowestKey]

/-- The wait-for-key machine (44_keypad_timers.md R184): still waiting, latching, or complete. -/
theorem waitForKey_cases (x : Nibble) (s : State) :
    (s.wk = .idle ∧ (∀ k : Fin 16, s.keys[k] = false) ∧ waitForKey x s = s.rewind) ∨
    (∃ k, s.wk = .idle ∧ lowestKey s.keys = some k ∧ waitForKey x s = s.rewind.setWk (.keyLatched k)) ∨
    (∃ k, s.wk = .keyLatched k ∧ s.keys[k] = true ∧ waitForKey x s = s.rewind) ∨
    (∃ k, s.wk = .keyLatched k ∧ s.keys[k] = false ∧
      waitForKey x s = (s.setReg x (BitVec.ofNat 8 k.val)).setWk .idle) := by
  cases hw : s.wk with
  | idle =>
    cases hk : lowestKey s.keys with
    | none => exact Or.inl ⟨rfl, lowestKey_none.mp hk, by simp [waitForKey, hw, hk]⟩
    | some k => exact Or.inr (Or.inl ⟨k, rfl, rfl, by simp [waitForKey, hw, hk]⟩)
  | keyLatched k =>
    cases hk : s.keys[k] with
    | true => exact Or.inr (Or.inr (Or.inl ⟨k, rfl, hk, by simp [waitForKey, hw, hk]⟩))
    | false => exact Or.inr (Or.inr (Or.inr ⟨k, rfl, hk, by simp [waitForKey, hw, hk]⟩))

/-- One timer's tick is its value less one, floored at 0 (40_cycle_dispatch.md R94). -/
@[simp] theorem toNat_countDown (t : Byte) : (countDown t).toNat = t.toNat - 1 := by
  unfold countDown
  split
  · rename_i h; simp [h]
  · rename_i h
    have h0 : t.toNat ≠ 0 := fun e => h (BitVec.eq_of_toNat_eq (by simpa using e))
    have h1 := t.isLt
    rw [BitVec.toNat_sub]
    simp
    omega

/-- The fetch answers the two bytes at pc, or raises FetchRange. -/
theorem fetch16_ok (s : State) (h : s.pc.toNat + 1 < memSize) :
    fetch16 .fault s = .ok (wordOfBytes (s.mem.read s.pc.toNat) (s.mem.read (s.pc.toNat + 1))) := by
  have h' : ¬ memSize ≤ s.pc.toNat + 1 := by omega
  simp only [fetch16, h', and_false, if_false, Nat.mod_eq_of_lt h, Nat.mod_eq_of_lt (show s.pc.toNat < memSize by omega)]

theorem fetch16_out_of_range (s : State) (h : memSize ≤ s.pc.toNat + 1) :
    fetch16 .fault s = .error ⟨.fetchRange, s.pc⟩ := by
  simp [fetch16, h]

end Sys2Proof.Machine
end

