-- ==== Sys2Proof/Laws/Frame.lean ====
section
/-! SUPPORT. The frame relation `OnlyChanges`: it composes, it widens, and one lemma per kind of update. -/

namespace Sys2Proof.Machine

theorem OnlyChanges.refl (p : Part → Prop) (s : State) : OnlyChanges p s s := by
  simp [OnlyChanges]

theorem OnlyChanges.mono {p q : Part → Prop} {s t : State} (h : OnlyChanges p s t) (hpq : ∀ a, p a → q a) :
    OnlyChanges q s t := by
  obtain ⟨h1, h2, h3, h4, h5, h6, h7, h8, h9, h10, h11, h12, h13⟩ := h
  exact ⟨fun r hq => h1 r (fun hp => hq (hpq _ hp)), fun hq => h2 (fun hp => hq (hpq _ hp)),
    fun hq => h3 (fun hp => hq (hpq _ hp)), fun k hq => h4 k (fun hp => hq (hpq _ hp)),
    fun hq => h5 (fun hp => hq (hpq _ hp)), fun hq => h6 (fun hp => hq (hpq _ hp)),
    fun hq => h7 (fun hp => hq (hpq _ hp)), fun a hq => h8 a (fun hp => hq (hpq _ hp)),
    fun x y hq => h9 x y (fun hp => hq (hpq _ hp)), fun k hq => h10 k (fun hp => hq (hpq _ hp)),
    fun hq => h11 (fun hp => hq (hpq _ hp)), fun hq => h12 (fun hp => hq (hpq _ hp)),
    fun hq => h13 (fun hp => hq (hpq _ hp))⟩

theorem OnlyChanges.trans {p : Part → Prop} {s t u : State} (h : OnlyChanges p s t) (k : OnlyChanges p t u) :
    OnlyChanges p s u := by
  obtain ⟨h1, h2, h3, h4, h5, h6, h7, h8, h9, h10, h11, h12, h13⟩ := h
  obtain ⟨k1, k2, k3, k4, k5, k6, k7, k8, k9, k10, k11, k12, k13⟩ := k
  exact ⟨fun r n => (k1 r n).trans (h1 r n), fun n => (k2 n).trans (h2 n), fun n => (k3 n).trans (h3 n),
    fun j n => (k4 j n).trans (h4 j n), fun n => (k5 n).trans (h5 n), fun n => (k6 n).trans (h6 n),
    fun n => (k7 n).trans (h7 n), fun a n => (k8 a n).trans (h8 a n), fun x y n => (k9 x y n).trans (h9 x y n),
    fun j n => (k10 j n).trans (h10 j n), fun n => (k11 n).trans (h11 n), fun n => (k12 n).trans (h12 n),
    fun n => ⟨(k13 n).1.trans (h13 n).1, (k13 n).2.trans (h13 n).2⟩⟩

/-- A register write. -/
theorem OnlyChanges.setReg (s : State) (r : Nibble) (b : Byte) : OnlyChanges (· = .reg r) s (s.setReg r b) := by
  simp +contextual [OnlyChanges]

/-- A flag write and a register write. -/
theorem OnlyChanges.setFlagThenReg (s : State) (f : Bool) (x : Nibble) (b : Byte) :
    OnlyChanges (fun p => p = .reg x ∨ p = .reg vf) s (s.setFlagThenReg f x b) :=
  ((OnlyChanges.setReg s vf _).mono (by simp)).trans ((OnlyChanges.setReg _ x b).mono (by simp))

/-- A write of pc. -/
theorem OnlyChanges.setPc (s : State) (w : Word) : OnlyChanges (· = .pc) s { s with pc := w } := by
  simp [OnlyChanges, State.reg]

theorem OnlyChanges.rewind (s : State) : OnlyChanges (· = .pc) s s.rewind := OnlyChanges.setPc s _

theorem OnlyChanges.advance (s : State) : OnlyChanges (· = .pc) s s.advance := OnlyChanges.setPc s _

theorem OnlyChanges.skipIf (s : State) (c : Bool) : OnlyChanges (· = .pc) s (s.skipIf c) := by
  cases c
  · exact OnlyChanges.refl _ s
  · exact OnlyChanges.setPc s _

/-- A write of I. -/
theorem OnlyChanges.setIndex (s : State) (w : Word) : OnlyChanges (· = .index) s (s.setIndex w) := by
  simp [OnlyChanges, State.reg]

/-- A write of DT, of ST, of wk. -/
theorem OnlyChanges.setDt (s : State) (b : Byte) : OnlyChanges (· = .dt) s (s.setDt b) := by
  simp [OnlyChanges]

theorem OnlyChanges.setSt (s : State) (b : Byte) : OnlyChanges (· = .st) s (s.setSt b) := by
  simp [OnlyChanges]

theorem OnlyChanges.setWk (s : State) (k : WaitKey) : OnlyChanges (· = .wk) s (s.setWk k) := by
  simp [OnlyChanges]

/-- A write of the key flags. -/
theorem OnlyChanges.setKeys (s : State) (keys : Vector Bool 16) :
    OnlyChanges (fun p => ∃ k, p = .key k) s (s.setKeys keys) := by
  simp [OnlyChanges]

/-- The random byte consumed. -/
theorem OnlyChanges.drawn (s : State) : OnlyChanges (· = .random) s s.drawn := by
  simp [OnlyChanges]

/-- A memory, described byte by byte. -/
theorem OnlyChanges.setMem (p : Part → Prop) (s : State) (m : Memory)
    (h : ∀ a, ¬ p (.byte a) → m.read a = s.mem.read a) : OnlyChanges p s (s.setMem m) := by
  simpa [OnlyChanges] using h

/-- A framebuffer, described pixel by pixel. -/
theorem OnlyChanges.setFb (p : Part → Prop) (s : State) (fb : Framebuffer)
    (h : ∀ x y, ¬ p (.pixel x y) → fb.pixel x y = s.fb.pixel x y) : OnlyChanges p s (s.setFb fb) := by
  simpa [OnlyChanges] using h

/-- A register file, described register by register. -/
theorem OnlyChanges.setV (p : Part → Prop) {s t : State} (ht : t = { s with v := t.v })
    (h : ∀ r, ¬ p (.reg r) → t.reg r = s.reg r) : OnlyChanges p s t := by
  rw [ht] at h ⊢
  simpa [OnlyChanges] using h

/-- A fault taken in the execute phase changes FAULT and pc alone. -/
theorem OnlyChanges.raiseIn (s : State) (i : Instr) (e : Raise) : OnlyChanges faultAssigns s (s.raiseIn i e) := by
  simp [OnlyChanges, faultAssigns]

end Sys2Proof.Machine
end

