-- ==== Sys2Proof/Laws/PerInstr.lean ====
section
/-! SUPPORT. Statements about every instruction as syntax, made per instruction. Family `Row`: the word of a
well-formed instruction selects the row that the opcode map gives it (30_encoding.md R76). -/

namespace Sys2Proof.Laws.Row

/-- The word of a well-formed instruction selects its row of the opcode map. -/
def Statement (i : Instr) : Prop := i.wellFormed = true → i.row.selects (encode i) = true

/-- A mask nibble of ones keeps its nibble. -/
theorem and_ones (p : Nibble) : p &&& 0xF#4 = p := by revert p; decide

/-- A mask byte of ones keeps its byte. -/
theorem and_ones8 (p : Byte) : p &&& 0xFF#8 = p := by
  have h : (0xFF#8 : Byte) = BitVec.allOnes 8 := by decide
  rw [h, BitVec.and_allOnes]

/-! One lemma per format of 30_encoding.md R72: the mask keeps the fixed fields and clears the others. -/

theorem format_A (p : Nibble) (m : Addr12) : OpcodeRow.selects ⟨0xF000, p ++ 0#12⟩ (p ++ m) = true := by
  show ((p ++ m) &&& (0xF#4 ++ 0#12) == p ++ 0#12) = true
  rw [BitVec.and_append, and_ones, BitVec.and_zero, beq_self_eq_true]

theorem format_XK (p x : Nibble) (m : Byte) : OpcodeRow.selects ⟨0xF000, p ++ 0#4 ++ 0#8⟩ (p ++ x ++ m) = true := by
  show ((p ++ x ++ m) &&& (0xF#4 ++ 0#4 ++ 0#8) == p ++ 0#4 ++ 0#8) = true
  rw [BitVec.and_append, BitVec.and_append, and_ones, BitVec.and_zero, BitVec.and_zero, beq_self_eq_true]

theorem format_XYN (p x y n : Nibble) :
    OpcodeRow.selects ⟨0xF000, p ++ 0#4 ++ 0#4 ++ 0#4⟩ (p ++ x ++ y ++ n) = true := by
  show ((p ++ x ++ y ++ n) &&& (0xF#4 ++ 0#4 ++ 0#4 ++ 0#4) == p ++ 0#4 ++ 0#4 ++ 0#4) = true
  rw [BitVec.and_append, BitVec.and_append, BitVec.and_append, and_ones, BitVec.and_zero, BitVec.and_zero,
    BitVec.and_zero, beq_self_eq_true]

theorem format_N (p q : Nibble) (m : Byte) :
    OpcodeRow.selects ⟨0xF00F, p ++ 0#8 ++ q⟩ (p ++ m ++ q) = true := by
  show ((p ++ m ++ q) &&& (0xF#4 ++ 0#8 ++ 0xF#4) == p ++ 0#8 ++ q) = true
  rw [BitVec.and_append, BitVec.and_append, and_ones, and_ones, BitVec.and_zero, beq_self_eq_true]

theorem format_XY (p q x y : Nibble) :
    OpcodeRow.selects ⟨0xF00F, p ++ 0#4 ++ 0#4 ++ q⟩ (p ++ x ++ y ++ q) = true := by
  show ((p ++ x ++ y ++ q) &&& (0xF#4 ++ 0#4 ++ 0#4 ++ 0xF#4) == p ++ 0#4 ++ 0#4 ++ q) = true
  rw [BitVec.and_append, BitVec.and_append, BitVec.and_append, and_ones, and_ones, BitVec.and_zero,
    BitVec.and_zero, beq_self_eq_true]

theorem format_X (p x : Nibble) (k : Byte) :
    OpcodeRow.selects ⟨0xF0FF, p ++ 0#4 ++ k⟩ (p ++ x ++ k) = true := by
  show ((p ++ x ++ k) &&& (0xF#4 ++ 0#4 ++ 0xFF#8) == p ++ 0#4 ++ k) = true
  rw [BitVec.and_append, BitVec.and_append, and_ones, BitVec.and_zero, and_ones8, beq_self_eq_true]

theorem cls (ign : Byte) : Statement (.cls ign) := fun _ => format_N _ _ _
theorem ret (ign : Byte) : Statement (.ret ign) := fun _ => format_N _ _ _
theorem jp (nnn : Addr12) : Statement (.jp nnn) := fun _ => format_A _ _
theorem call (nnn : Addr12) : Statement (.call nnn) := fun _ => format_A _ _
theorem seImm (x : Nibble) (kk : Byte) : Statement (.seImm x kk) := fun _ => format_XK _ _ _
theorem sneImm (x : Nibble) (kk : Byte) : Statement (.sneImm x kk) := fun _ => format_XK _ _ _
theorem seReg (x y : Nibble) (ign : Nibble) : Statement (.seReg x y ign) := fun _ => format_XYN _ _ _ _
theorem ldImm (x : Nibble) (kk : Byte) : Statement (.ldImm x kk) := fun _ => format_XK _ _ _
theorem addImm (x : Nibble) (kk : Byte) : Statement (.addImm x kk) := fun _ => format_XK _ _ _
theorem ldReg (x y : Nibble) : Statement (.ldReg x y) := fun _ => format_XY _ _ _ _
theorem orReg (x y : Nibble) : Statement (.orReg x y) := fun _ => format_XY _ _ _ _
theorem andReg (x y : Nibble) : Statement (.andReg x y) := fun _ => format_XY _ _ _ _
theorem xorReg (x y : Nibble) : Statement (.xorReg x y) := fun _ => format_XY _ _ _ _
theorem addReg (x y : Nibble) : Statement (.addReg x y) := fun _ => format_XY _ _ _ _
theorem sub (x y : Nibble) : Statement (.sub x y) := fun _ => format_XY _ _ _ _
theorem shr (x y : Nibble) : Statement (.shr x y) := fun _ => format_XY _ _ _ _
theorem subn (x y : Nibble) : Statement (.subn x y) := fun _ => format_XY _ _ _ _
theorem shl (x y : Nibble) : Statement (.shl x y) := fun _ => format_XY _ _ _ _
theorem sneReg (x y : Nibble) (ign : Nibble) : Statement (.sneReg x y ign) := fun _ => format_XYN _ _ _ _
theorem ldI (nnn : Addr12) : Statement (.ldI nnn) := fun _ => format_A _ _
theorem jpV0 (nnn : Addr12) : Statement (.jpV0 nnn) := fun _ => format_A _ _
theorem rnd (x : Nibble) (kk : Byte) : Statement (.rnd x kk) := fun _ => format_XK _ _ _
theorem drw (x y n : Nibble) : Statement (.drw x y n) := fun _ => format_XYN _ _ _ _
theorem skp (x : Nibble) (ign : Nibble) : Statement (.skp x ign) := fun _ => format_XY _ _ _ _
theorem sknp (x : Nibble) (ign : Nibble) : Statement (.sknp x ign) := fun _ => format_XY _ _ _ _
theorem ldVxDT (x : Nibble) : Statement (.ldVxDT x) := fun _ => format_X _ _ _
theorem ldVxK (x : Nibble) : Statement (.ldVxK x) := fun _ => format_X _ _ _
theorem ldDTVx (x : Nibble) : Statement (.ldDTVx x) := fun _ => format_X _ _ _
theorem ldSTVx (x : Nibble) : Statement (.ldSTVx x) := fun _ => format_X _ _ _
theorem addI (x : Nibble) : Statement (.addI x) := fun _ => format_X _ _ _
theorem ldF (x : Nibble) : Statement (.ldF x) := fun _ => format_X _ _ _
theorem ldB (x : Nibble) : Statement (.ldB x) := fun _ => format_X _ _ _
theorem storeRegs (x : Nibble) : Statement (.storeRegs x) := fun _ => format_X _ _ _
theorem loadRegs (x : Nibble) : Statement (.loadRegs x) := fun _ => format_X _ _ _
theorem noop0 (arg : Addr12) : Statement (.noop0 arg) := fun _ => format_A _ _
theorem noop8 (arg : Addr12) : Statement (.noop8 arg) := fun _ => format_A _ _
theorem noopE (arg : Addr12) : Statement (.noopE arg) := fun _ => format_A _ _
theorem noopF (arg : Addr12) : Statement (.noopF arg) := fun _ => format_A _ _

end Sys2Proof.Laws.Row
end

