-- ==== Sys2Proof/Laws/Step.lean ====
section
/-! SUPPORT. What an execute phase and a step can do: the inversion lemmas that later proofs cite. -/

namespace Sys2Proof.Machine

/-- Every raise of `storeAtIndex`, `loadFromIndex` and `drawSprite` under this hardware's parameters is MemRange. -/
theorem storeAtIndex_cases (bs : List Byte) (s : State) :
    (∃ m, storeAtIndex .fault bs s = .ok (s.setMem m)) ∨
      (∃ e, storeAtIndex .fault bs s = .error e ∧ e.cause = .memRange) := by
  unfold storeAtIndex
  cases h : storeBytes .fault s.i.toNat bs s.mem with
  | ok m => exact Or.inl ⟨m, rfl⟩
  | error e => exact Or.inr ⟨e, rfl, storeBytes_error bs h⟩

theorem loadFromIndex_cases (n : Nat) (s : State) (hn : n ≤ 16) :
    (∃ t, loadFromIndex .fault n s = .ok t ∧ t = { s with v := t.v }) ∨
      (∃ e, loadFromIndex .fault n s = .error e ∧ e.cause = .memRange) := by
  by_cases h : s.i.toNat + n ≤ memSize
  · obtain ⟨t, h1, h2, -⟩ := loadFromIndex_ok .fault n s h hn
    exact Or.inl ⟨t, h1, h2⟩
  · rcases Nat.eq_zero_or_pos n with rfl | h0
    · exact Or.inl ⟨s, rfl, rfl⟩
    · exact Or.inr ⟨_, loadFromIndex_out_of_range n s h0 (by omega), rfl⟩

theorem drawSprite_cases (x y n : Nibble) (s : State) :
    (∃ fb hit, drawSprite hw x y n s = .ok ((s.setReg vf (flagByte hit)).setFb fb)) ∨
      (∃ e, drawSprite hw x y n s = .error e ∧ e.cause = .memRange) := by
  by_cases h : n = 0 ∨ s.i.toNat + n.toNat ≤ memSize
  · obtain ⟨fb, hit, h1, -⟩ := drawSprite_ok x y n s h
    exact Or.inl ⟨fb, hit, h1⟩
  · obtain ⟨hn, hm⟩ := not_or.mp h
    exact Or.inr ⟨_, drawSprite_out_of_range x y n s hn (Nat.lt_of_not_le hm), rfl⟩

/-- What a shared operation that may raise gives through `complete`: the rule's state, or the fault taken. -/
theorem complete_ok {i : Instr} {s u : State} {r : Except Raise State} (h : r = .ok u) :
    complete i s r = .next u := by
  rw [h]; rfl

theorem complete_error {i : Instr} {s : State} {r : Except Raise State} {e : Raise} (h : r = .error e) :
    complete i s r = .next (s.raiseIn i e) := by
  rw [h]; rfl

/-! ### The step -/

/-- A halted block answers a fault (40_cycle_dispatch.md R97, 60_exceptions.md R225). -/
theorem step_of_halted {s : State} (h : s.halted) : step s = .fault (.halted s.faultReg.cause) := by
  simp only [step, cycle, if_neg h]

/-- The fetch fault of a cycle (40_cycle_dispatch.md R91). -/
theorem step_of_not_fetchable {s : State} (h : s.normalEnd) (hf : ¬ s.fetchable) :
    step s = .next (s.takeFault 0 ⟨.fetchRange, s.pc⟩) := by
  simp only [step, cycle, if_pos h, hw_rangePolicy, fetch16_out_of_range s (Nat.le_of_not_lt hf)]

/-- A cycle whose fetch is in range executes the word at pc on the advanced state, and ends (40_cycle_dispatch.md R90). -/
theorem step_of_fetchable {s : State} (h : s.normalEnd) (hf : s.fetchable) :
    step s = endCycle (exec (decodeWord s.wordAt) s.advance) := by
  simp only [step, cycle, if_pos h, hw_rangePolicy, fetch16_ok s hf]
  rfl

/-- INVERSION: what a step that answers a next state did. -/
theorem step_cases {s t : State} (h : step s = .next t) :
    s.normalEnd ∧
    ((¬ s.fetchable ∧ t = s.takeFault 0 ⟨.fetchRange, s.pc⟩) ∨
      (s.fetchable ∧ ∃ u, exec (decodeWord s.wordAt) s.advance = .next u ∧
        t = if u.normalEnd then tick u else u)) := by
  by_cases hn : s.normalEnd
  · refine ⟨hn, ?_⟩
    by_cases hf : s.fetchable
    · rw [step_of_fetchable hn hf] at h
      cases he : exec (decodeWord s.wordAt) s.advance with
      | next u =>
        rw [he] at h
        cases h
        exact Or.inr ⟨hf, u, rfl, rfl⟩
      | fault r => rw [he] at h; cases h
      | refused r => rw [he] at h; cases h
    · rw [step_of_not_fetchable hn hf] at h
      cases h
      exact Or.inl ⟨hf, rfl⟩
  · rw [step_of_halted hn] at h
    cases h

/-- A Step transaction whose cycle answers a next state gives that state, with no random byte left over
(60_exceptions.md R233, R235). -/
theorem hostStep_next {r : Byte} {s t : State} (h : step { s with randIn := some r } = .next t) :
    hostStep r s = .next { t with randIn := none } := by
  simp only [hostStep, h]

end Sys2Proof.Machine
end

