-- ==== Sys2Proof/Tests/Slice0.lean ====
section
/-! SUPPORT. The model's own tests: ill-formed terms that WellFormed refuses, a decoding for every constructor by a
word written out from 30_encoding.md R72 and R76, single steps whose results stand in 95_test_vectors.md, and witnesses
that meet the hypotheses of every obligation that has some. -/

namespace Sys2Proof.Tests

open Sys2Proof Sys2Proof.Machine

/-! ### Helpers -/

/-- The next state of an outcome, if it is one. -/
def nxt : Host.Outcome State Fault Refusal → Option State
  | .next t => some t
  | .fault _ => none
  | .refused _ => none

/-- The reset state with a word at pc. -/
def at200 (w : Nat) : State := State.reset.withFetchWord 16 w

/-- A state with values put into registers. -/
def withRegs (s : State) (l : List (Nibble × Byte)) : State := l.foldl (fun s p => s.setReg p.1 p.2) s

/-- A state with bytes put into memory from `a` on. -/
def withBytes (s : State) (a : Nat) (bs : List Byte) : State := s.setMem (writeImage a bs s.mem)

/-- A state with exactly the keys of a list pressed. -/
def withKeys (s : State) (ks : List (Fin 16)) : State := s.setKeys (Vector.ofFn fun k => ks.contains k)

/-- Registers of an outcome's next state. -/
def regsOf (o : Host.Outcome State Fault Refusal) (rs : List Nibble) : Option (List Byte) :=
  (nxt o).map fun t => rs.map t.reg

/-- Bytes of memory of an outcome's next state. -/
def bytesOf (o : Host.Outcome State Fault Refusal) (as : List Nat) : Option (List Byte) :=
  (nxt o).map fun t => as.map t.mem.read

/-- The pixels of one row that are on, in an outcome's next state. -/
def rowOf (o : Host.Outcome State Fault Refusal) (y : Fin 32) : Option (List Nat) :=
  (nxt o).map fun t => (List.range 64).filter fun x => t.fb.pixel (Fin.ofNat 64 x) y

/-- FAULT of an outcome's next state, as the host reads it. -/
def faultOf (o : Host.Outcome State Fault Refusal) : Option (BitVec 3 × Word × Word × Word) :=
  (nxt o).map State.faultOut

/-! ### WellFormed -/

theorem test_ill_formed_noop0 : (Instr.noop0 0x120).wellFormed = false ∧ (Instr.noop0 0x12E).wellFormed = false := by
  decide

theorem test_ill_formed_noop8 : (Instr.noop8 0x124).wellFormed = false ∧ (Instr.noop8 0x12E).wellFormed = false := by
  decide

theorem test_ill_formed_noopE : (Instr.noopE 0x39E).wellFormed = false ∧ (Instr.noopE 0x3A1).wellFormed = false := by
  decide

theorem test_ill_formed_noopF : (Instr.noopF 0x307).wellFormed = false ∧ (Instr.noopF 0x365).wellFormed = false := by
  decide

theorem test_well_formed : (Instr.noop0 0x123).wellFormed = true ∧ (Instr.noop8 0x00F).wellFormed = true ∧
    (Instr.noopE 0x000).wellFormed = true ∧ (Instr.noopF 0x0FF).wellFormed = true ∧
    (Instr.drw 0xF 0xF 0).wellFormed = true := by
  decide

/-! ### Decoding: words written bit by bit (30_encoding.md R72, R75, R76, R77) -/

theorem test_decode_family0 : decodeWord 0b0000000011100000 = .cls 0x0E ∧ decodeWord 0b0000000011101110 = .ret 0x0E ∧
    decodeWord 0b0000000100100011 = .noop0 0x123 := by
  decide

theorem test_decode_jumps : decodeWord 0b0001101010111100 = .jp 0xABC ∧ decodeWord 0b0010001100000000 = .call 0x300 ∧
    decodeWord 0b1011111111111111 = .jpV0 0xFFF := by
  decide

theorem test_decode_skips : decodeWord 0b0011001101000010 = .seImm 0x3 0x42 ∧
    decodeWord 0b0100001101000010 = .sneImm 0x3 0x42 ∧ decodeWord 0b0101000100100001 = .seReg 0x1 0x2 0x1 ∧
    decodeWord 0b1001000100100000 = .sneReg 0x1 0x2 0x0 := by
  decide

theorem test_decode_immediates : decodeWord 0b0110101000101111 = .ldImm 0xA 0x2F ∧
    decodeWord 0b0111001000000101 = .addImm 0x2 0x05 ∧ decodeWord 0b1010001011110000 = .ldI 0x2F0 ∧
    decodeWord 0b1100001100001111 = .rnd 0x3 0x0F := by
  decide

theorem test_decode_family8 : decodeWord 0b1000000100100000 = .ldReg 0x1 0x2 ∧
    decodeWord 0b1000000100100001 = .orReg 0x1 0x2 ∧ decodeWord 0b1000000100100010 = .andReg 0x1 0x2 ∧
    decodeWord 0b1000000100100011 = .xorReg 0x1 0x2 ∧ decodeWord 0b1000000100100100 = .addReg 0x1 0x2 := by
  decide

theorem test_decode_family8_more : decodeWord 0b1000000100100101 = .sub 0x1 0x2 ∧
    decodeWord 0b1000000100100110 = .shr 0x1 0x2 ∧ decodeWord 0b1000000100100111 = .subn 0x1 0x2 ∧
    decodeWord 0b1000000100101110 = .shl 0x1 0x2 ∧ decodeWord 0b1000000000001000 = .noop8 0x008 := by
  decide

theorem test_decode_draw : decodeWord 0b1101000000010101 = .drw 0x0 0x1 0x5 := by decide

theorem test_decode_familyE : decodeWord 0b1110010110011110 = .skp 0x5 0x9 ∧
    decodeWord 0b1110010110100001 = .sknp 0x5 0xA ∧ decodeWord 0b1110000000000000 = .noopE 0x000 := by
  decide

theorem test_decode_familyF : decodeWord 0b1111001100000111 = .ldVxDT 0x3 ∧
    decodeWord 0b1111010000001010 = .ldVxK 0x4 ∧ decodeWord 0b1111001000010101 = .ldDTVx 0x2 ∧
    decodeWord 0b1111001000011000 = .ldSTVx 0x2 ∧ decodeWord 0b1111000100011110 = .addI 0x1 := by
  decide

theorem test_decode_familyF_more : decodeWord 0b1111001000101001 = .ldF 0x2 ∧
    decodeWord 0b1111001100110011 = .ldB 0x3 ∧ decodeWord 0b1111001001010101 = .storeRegs 0x2 ∧
    decodeWord 0b1111001001100101 = .loadRegs 0x2 ∧ decodeWord 0b1111000011111111 = .noopF 0x0FF := by
  decide

/-- Big-endian bytes, and a missing byte refused by name (30_encoding.md R70, R71). -/
theorem test_decode_bytes : decodeTableWord 16 0x1ABC = some (.jp 0xABC) ∧
    (match decode [0x12] with | .error e => some e | .ok _ => none) = some (.truncated 1) := by
  decide

/-! ### Single steps (95_test_vectors.md; the vector's name stands in each comment) -/

/-- V-DSP-3: 0x0000 is CLS. -/
theorem test_cls : rowOf (step ((at200 0x0000).setFb (Framebuffer.blank.toggle 5 5))) 5 = some [] := by decide

/-- V-CF-3. -/
theorem test_ret : (nxt (step { at200 0x00EE with sp := 1, stack := State.reset.stack.set 1 0x204 })).map
    (fun t => (t.pc, t.sp)) = some (0x204, 0) := by
  decide

/-- V-CF-4. -/
theorem test_ret_empty : faultOf (step (at200 0x00EE)) = some (4, 0x200, 0x00EE, 0) := by decide

/-- V-CF-18: an odd target. -/
theorem test_jp : (nxt (step (at200 0x1203))).map State.pc = some 0x203 := by decide

/-- V-CF-2. -/
theorem test_call : (nxt (step (at200 0x2300))).map (fun t => (t.pc, t.sp, t.stack[1])) = some (0x300, 1, 0x202) := by
  decide

/-- V-CF-5. -/
theorem test_call_full : faultOf (step { at200 0x2300 with sp := 15 }) = some (3, 0x200, 0x2300, 0x000F) := by decide

/-- V-CF-7, V-CF-8. -/
theorem test_seImm : (nxt (step (withRegs (at200 0x3342) [(3, 0x42)]))).map State.pc = some 0x204 ∧
    (nxt (step (withRegs (at200 0x3342) [(3, 0x41)]))).map State.pc = some 0x202 := by
  decide

/-- V-CF-9, V-CF-10. -/
theorem test_sneImm : (nxt (step (withRegs (at200 0x4342) [(3, 0x41)]))).map State.pc = some 0x204 ∧
    (nxt (step (withRegs (at200 0x4342) [(3, 0x42)]))).map State.pc = some 0x202 := by
  decide

/-- V-CF-11. -/
theorem test_seReg : (nxt (step (withRegs (at200 0x5121) [(1, 7), (2, 7)]))).map State.pc = some 0x204 := by decide

/-- V-CF-12, V-CF-13. -/
theorem test_sneReg : (nxt (step (withRegs (at200 0x9120) [(1, 7), (2, 8)]))).map State.pc = some 0x204 ∧
    (nxt (step (withRegs (at200 0x9110) [(1, 7)]))).map State.pc = some 0x202 := by
  decide

/-- V-CF-15. -/
theorem test_jpV0 : (nxt (step (withRegs (at200 0xBFFF) [(0, 0xFF)]))).map State.pc = some 0x10FE := by decide

/-- V-ALU-1. -/
theorem test_ldImm : regsOf (step (at200 0x6A2F)) [0xA] = some [0x2F] := by decide

/-- V-ALU-3, V-ALU-4. -/
theorem test_addImm : regsOf (step (withRegs (at200 0x7101) [(1, 0xFF), (0xF, 0x55)])) [1, 0xF] = some [0, 0x55] ∧
    regsOf (step (withRegs (at200 0x7F03) [(0xF, 0xFE)])) [0xF] = some [0x01] := by
  decide

/-- V-ALU-5. -/
theorem test_ldReg : regsOf (step (withRegs (at200 0x8120) [(1, 3), (2, 9)])) [1, 2] = some [9, 9] := by decide

/-- V-ALU-6. -/
theorem test_orReg : regsOf (step (withRegs (at200 0x8121) [(1, 0x0F), (2, 0xF0), (0xF, 7)])) [1, 0xF] =
    some [0xFF, 7] := by
  decide

/-- V-ALU-7. -/
theorem test_andReg : regsOf (step (withRegs (at200 0x8122) [(1, 0x3C), (2, 0x0F)])) [1] = some [0x0C] := by decide

/-- V-ALU-8, V-ALU-9. -/
theorem test_xorReg : regsOf (step (withRegs (at200 0x8123) [(1, 0x3C), (2, 0x0F)])) [1] = some [0x33] ∧
    regsOf (step (withRegs (at200 0x8113) [(1, 0x3C)])) [1] = some [0] := by
  decide

/-- V-ALU-10, V-ALU-13 (x = y). -/
theorem test_addReg : regsOf (step (withRegs (at200 0x8124) [(1, 250), (2, 10)])) [1, 0xF] = some [4, 1] ∧
    regsOf (step (withRegs (at200 0x8114) [(1, 0x80)])) [1, 0xF] = some [0, 1] := by
  decide

/-- V-ALU-14, V-ALU-15: VF as destination and as source. -/
theorem test_addReg_flag : regsOf (step (withRegs (at200 0x8F14) [(0xF, 200), (1, 100)])) [0xF] = some [0x2C] ∧
    regsOf (step (withRegs (at200 0x81F4) [(0xF, 5), (1, 10)])) [1, 0xF] = some [0x0F, 0] := by
  decide

/-- V-ALU-16, V-ALU-18. -/
theorem test_sub : regsOf (step (withRegs (at200 0x8125) [(1, 5), (2, 10)])) [1, 0xF] = some [0xFB, 0] ∧
    regsOf (step (withRegs (at200 0x8125) [(1, 7), (2, 7)])) [1, 0xF] = some [0, 1] := by
  decide

/-- V-ALU-19. -/
theorem test_sub_flag : regsOf (step (withRegs (at200 0x8F15) [(0xF, 3), (1, 5)])) [0xF] = some [0xFE] := by decide

/-- V-ALU-21, V-ALU-24. -/
theorem test_shr : regsOf (step (withRegs (at200 0x8126) [(1, 0x04), (2, 0x03)])) [1, 0xF] = some [1, 1] ∧
    regsOf (step (withRegs (at200 0x8F16) [(1, 9)])) [0xF] = some [0x04] := by
  decide

/-- V-ALU-22: the other SHIFT_SRC. -/
theorem test_shr_from_x : (withRegs State.reset [(1, 0x04), (2, 0x03)] |> shiftRightWith .x 1 2).reg 1 = 0x02 := by
  decide

/-- V-ALU-25, V-ALU-27. -/
theorem test_subn : regsOf (step (withRegs (at200 0x8127) [(1, 10), (2, 5)])) [1, 0xF] = some [0xFB, 0] ∧
    regsOf (step (withRegs (at200 0x8127) [(1, 9), (2, 9)])) [1, 0xF] = some [0, 1] := by
  decide

/-- V-ALU-28, V-ALU-30. -/
theorem test_shl : regsOf (step (withRegs (at200 0x812E) [(2, 0x81)])) [1, 0xF] = some [2, 1] ∧
    regsOf (step (withRegs (at200 0x8F1E) [(1, 0x81)])) [0xF] = some [0x02] := by
  decide

/-- V-ALU-31: the other SHIFT_SRC. -/
theorem test_shl_from_x : (withRegs State.reset [(1, 0x01), (2, 0x80)] |> shiftLeftWith .x 1 2).reg 1 = 0x02 := by
  decide

/-- V-ALU-32, V-ALU-33. -/
theorem test_rnd : regsOf (step { at200 0xC30F with randIn := some 0xA7 }) [3] = some [0x07] ∧
    regsOf (step { withRegs (at200 0xC300) [(3, 9)] with randIn := some 0xA7 }) [3] = some [0x00] := by
  decide

/-- V-IDX-1. -/
theorem test_ldI : (nxt (step (at200 0xA2F0))).map State.i = some 0x2F0 := by decide

/-- V-IDX-2, V-IDX-3. -/
theorem test_addI : (nxt (step { withRegs (at200 0xF11E) [(1, 1), (0xF, 0x33)] with i := 0x0FFF })).map
      (fun t => (t.i, t.reg vf)) = some (0x1000, 0x33) ∧
    (nxt (step { withRegs (at200 0xF11E) [(1, 2)] with i := 0xFFFF })).map State.i = some 0x0001 := by
  decide

/-- V-IDX-4, V-IDX-5. -/
theorem test_ldF : (nxt (step (withRegs (at200 0xF229) [(2, 0x0B)]))).map State.i = some 0x087 ∧
    (nxt (step (withRegs (at200 0xF229) [(2, 0x1A)]))).map State.i = some 0x082 := by
  decide

/-- V-IDX-7. -/
theorem test_ldB : bytesOf (step { withRegs (at200 0xF333) [(3, 158)] with i := 0x300 }) [0x300, 0x301, 0x302] =
    some [1, 5, 8] := by
  decide

/-- V-IDX-11: the other RANGE_POLICY. -/
theorem test_ldB_wrap : (match storeBytes .wrap 0xFFF [1, 5, 8] [] with
    | .ok m => [m.read 0xFFF, m.read 0x000, m.read 0x001]
    | .error _ => []) = [1, 5, 8] := by
  decide

/-- V-IDX-12. -/
theorem test_storeRegs : bytesOf (step { withRegs (at200 0xF255) [(0, 1), (1, 2), (2, 3), (3, 4)] with i := 0x300 })
    [0x300, 0x301, 0x302, 0x303] = some [1, 2, 3, 0] := by
  decide

/-- V-IDX-14: nothing is stored. -/
theorem test_storeRegs_fault : faultOf (step { withRegs (at200 0xF255) [(0, 1), (1, 2), (2, 3)] with i := 0xFFE }) =
      some (2, 0x200, 0xF255, 0x1000) ∧
    bytesOf (step { withRegs (at200 0xF255) [(0, 1), (1, 2), (2, 3)] with i := 0xFFE }) [0xFFE, 0xFFF] = some [0, 0] := by
  decide

/-- V-IDX-15. -/
theorem test_loadRegs : regsOf (step { withBytes (withRegs (at200 0xF265) [(3, 0x44)]) 0x300 [1, 2, 3] with i := 0x300 })
    [0, 1, 2, 3] = some [1, 2, 3, 0x44] := by
  decide

/-- V-IDX-17: no register is loaded. -/
theorem test_loadRegs_fault : faultOf (step { withRegs (at200 0xFF65) [(1, 0x5A)] with i := 0x0FF1 }) =
      some (2, 0x200, 0xFF65, 0x1000) ∧
    regsOf (step { withRegs (at200 0xFF65) [(1, 0x5A)] with i := 0x0FF1 }) [1] = some [0x5A] := by
  decide

/-- V-DRW-7: the anchor is read before VF is cleared. -/
theorem test_drw_flag : rowOf (step { withBytes (withRegs (at200 0xDFF1) [(0xF, 10)]) 0x300 [0x80] with i := 0x300 }) 10 =
      some [10] ∧
    regsOf (step { withBytes (withRegs (at200 0xDFF1) [(0xF, 10)]) 0x300 [0x80] with i := 0x300 }) [0xF] = some [0] := by
  decide

/-- V-DRW-3 and V-DRW-11: clipping, and a collision. -/
theorem test_drw : rowOf (step { withBytes (withRegs (at200 0xD011) [(0, 62)]) 0x300 [0xFF] with i := 0x300 }) 0 =
      some [62, 63] ∧
    regsOf (step { withBytes (withRegs (at200 0xD011) [(0, 4), (1, 2)]) 0x300 [0x80] with
      i := 0x300, fb := Framebuffer.blank.toggle 4 2 }) [0xF] = some [1] := by
  decide

/-- V-DRW-3w and V-DRW-3f: the other EDGE_POLICY values, on the bit at (64, 0). -/
theorem test_drw_edges : (match drawBit .wrap 64 0 true ⟨Framebuffer.blank, false⟩ with
      | .ok d => d.fb.pixel 0 0
      | .error _ => false) = true ∧
    (match drawBit .fault 64 0 true ⟨Framebuffer.blank, false⟩ with
      | .ok _ => none
      | .error e => some e) = some ⟨.pixelRange, 0x4000⟩ := by
  decide

/-- V-KEY-1, V-KEY-2. -/
theorem test_skp : (nxt (step (withKeys (withRegs (at200 0xE59E) [(5, 0x0A)]) [10]))).map State.pc = some 0x204 ∧
    (nxt (step (withRegs (at200 0xE59E) [(5, 0x0A)]))).map State.pc = some 0x202 := by
  decide

/-- V-KEY-5, and V-KEY-6 for the other RANGE_POLICY. -/
theorem test_skp_range : faultOf (step (withRegs (at200 0xE59E) [(5, 0x10)])) = some (5, 0x200, 0xE59E, 0x0010) ∧
    (match keyRead .wrap (withKeys State.reset [2]) 0x12 with | .ok b => b | .error _ => false) = true := by
  decide

/-- V-KEY-3, V-KEY-4. -/
theorem test_sknp : (nxt (step (withRegs (at200 0xE5A1) [(5, 0x0A)]))).map State.pc = some 0x204 ∧
    (nxt (step (withKeys (withRegs (at200 0xE5A1) [(5, 0x0A)]) [10]))).map State.pc = some 0x202 := by
  decide

/-- V-KEY-8. -/
theorem test_ldVxDT : (nxt (step { at200 0xF307 with dt := 9 })).map (fun t => (t.reg 3, t.dt)) = some (9, 8) := by
  decide

/-- V-KEY-16: the lowest pressed key is latched. -/
theorem test_ldVxK_latch : (nxt (step (withKeys (at200 0xF40A) [9, 3]))).map (fun t => (t.wk, t.pc)) =
    some (.keyLatched 3, 0x200) := by
  decide

/-- V-KEY-18. -/
theorem test_ldVxK_release : (nxt (step { withKeys (at200 0xF40A) [9] with wk := .keyLatched 3 })).map
    (fun t => (t.reg 4, t.pc, t.wk)) = some (3, 0x202, .idle) := by
  decide

/-- V-KEY-9, V-KEY-10. -/
theorem test_ldDTVx : (nxt (step (withRegs (at200 0xF215) [(2, 5)]))).map State.dt = some 4 ∧
    (nxt (step (withRegs (at200 0xF215) [(2, 1)]))).map State.dt = some 0 := by
  decide

/-- V-KEY-13. -/
theorem test_ldSTVx : (nxt (step { withRegs (at200 0xF218) [(2, 3)] with dt := 2 })).map (fun t => (t.dt, t.st)) =
    some (1, 2) := by
  decide

/-- V-DSP-1, V-DSP-2, V-DSP-5, V-DSP-6: no-ops of the four families. -/
theorem test_noops : (nxt (step { at200 0x8008 with dt := 3 })).map (fun t => (t.pc, t.dt)) = some (0x202, 2) ∧
    (nxt (step (at200 0x0123))).map State.pc = some 0x202 ∧ (nxt (step (at200 0xE000))).map State.pc = some 0x202 ∧
    (nxt (step (at200 0xF0FF))).map State.pc = some 0x202 := by
  decide

/-- V-DSP-9, V-DSP-10: the first pc that faults, and the last that does not. -/
theorem test_fetch_range : faultOf (step { State.reset with pc := 0xFFF }) = some (1, 0xFFF, 0, 0xFFF) ∧
    (nxt (step ({ State.reset with pc := 0xFFE }.withFetchWord 16 0x6001))).map (fun t => (t.reg 0, t.pc)) =
      some (0x01, 0x1000) := by
  decide

/-- V-CF-6: the other RANGE_POLICY of the stack. -/
theorem test_call_wrap : (match pushPc .wrap 0x300 { State.reset with sp := 15, pc := 0x202 } with
    | .ok t => (t.sp, t.stack[0], t.pc)
    | .error _ => (0, 0, 0)) = (16, 0x202, 0x300) := by
  decide

/-! ### Witnesses: `witness_<Obligation>` meets the hypotheses of that obligation, at boundary values -/

/-- A decidable fact about the next state of an outcome, as the hypothesis of a statement has it. -/
theorem of_nxt {o : Host.Outcome State Fault Refusal} {P : State → Prop} [DecidablePred P]
    (h : (nxt o).any (fun t => decide (P t)) = true) : ∃ t, o = .next t ∧ P t := by
  cases o with
  | next t => exact ⟨t, rfl, by simpa [nxt] using h⟩
  | fault r => simp [nxt] at h
  | refused r => simp [nxt] at h

theorem witness_EncodeThenDecode : (Instr.noop8 0x00F).wellFormed = true ∧ (Instr.skp 0xF 0xF).wellFormed = true := by
  decide

theorem witness_OpcodeMapSelectsRow : (⟨0xF0FF, 0xF065⟩ ∈ instructionRows ∧ OpcodeRow.selects ⟨0xF0FF, 0xF065⟩ 0xFF65 = true) ∧
    ∀ r ∈ instructionRows, r.selects 0x800F = false := by
  decide

theorem witness_IgnoredBitsHaveNoEffect : ({ State.reset with sp := 1 } : State).sp ≠ 0 ∧
    ((withRegs State.reset [(5, 15)]).reg 5).toNat < 16 := by
  decide

theorem witness_StepRunsDecodedInstruction : (Instr.ldImm 0x0 0x01).wellFormed = true ∧
    ({ State.reset with pc := 0xFFE }.withFetchWord 16 0x6001).normalEnd ∧
    ({ State.reset with pc := 0xFFE }.withFetchWord 16 0x6001).fetchable ∧
    ({ State.reset with pc := 0xFFE }.withFetchWord 16 0x6001).wordAt = encode (.ldImm 0x0 0x01) := by
  decide

theorem witness_FetchRangeFaults : ({ State.reset with pc := 0xFFF } : State).normalEnd ∧
    ¬ ({ State.reset with pc := 0xFFF } : State).fetchable := by
  decide

theorem witness_HaltedBlockStaysHalted :
    ({ State.reset with faultReg := ⟨.stackUnderflow, 0x200, 0x00EE, 0⟩ } : State).halted := by
  decide

theorem witness_TimersTickEveryCycle :
    (∃ t, step { at200 0xF307 with dt := 1 } = .next t ∧ t.normalEnd) ∧
    decodeWord (at200 0xF307).wordAt = .ldVxDT 3 ∧
    (∃ t, step (withRegs (at200 0xF215) [(2, 1)]) = .next t ∧ t.normalEnd) ∧
    decodeWord (at200 0xF215).wordAt = .ldDTVx 2 ∧
    (∃ t, step (withRegs (at200 0xF218) [(2, 0)]) = .next t ∧ t.normalEnd) ∧
    decodeWord (at200 0xF218).wordAt = .ldSTVx 2 :=
  ⟨of_nxt (by decide), by decide, of_nxt (by decide), by decide, of_nxt (by decide), by decide⟩

theorem witness_UnmappedWordsAreNoOps :
    (at200 0x0001).normalEnd ∧ (at200 0x0001).fetchable ∧
    ((Instr.noop0 0x001).wellFormed = true ∧ (at200 0x0001).wordAt = encode (.noop0 0x001)) ∧
    ((Instr.noop8 0x00F).wellFormed = true ∧ (at200 0x800F).wordAt = encode (.noop8 0x00F)) ∧
    ((Instr.noopE 0x00F).wellFormed = true ∧ (at200 0xE00F).wordAt = encode (.noopE 0x00F)) ∧
    ((Instr.noopF 0x0FF).wellFormed = true ∧ (at200 0xF0FF).wordAt = encode (.noopF 0x0FF)) := by
  decide

theorem witness_EveryCycleCompletes : State.reset.normalEnd := by decide

theorem witness_FaultsArePrecise : (∃ t, step { State.reset with pc := 0xFFF } = .next t ∧ t.halted) ∧
    (∃ t, step (at200 0x00EE) = .next t ∧ t.halted) :=
  ⟨of_nxt (by decide), of_nxt (by decide)⟩

/-- One state for each cause, at the first value that raises it. -/
theorem witness_FaultCausesAndInfo :
    (∃ t, step (at200 0x6A2F) = .next t ∧ t.faultReg.cause = .noFault) ∧
    (∃ t, step { State.reset with pc := 0xFFF } = .next t ∧ t.faultReg.cause = .fetchRange) ∧
    (∃ t, step { at200 0xD013 with i := 0xFFE } = .next t ∧ t.faultReg.cause = .memRange) ∧
    (∃ t, step { at200 0x2300 with sp := 15 } = .next t ∧ t.faultReg.cause = .stackOverflow) ∧
    (∃ t, step (at200 0x00EE) = .next t ∧ t.faultReg.cause = .stackUnderflow) ∧
    (∃ t, step (withRegs (at200 0xE5A1) [(5, 16)]) = .next t ∧ t.faultReg.cause = .keyRange) :=
  ⟨of_nxt (by decide), of_nxt (by decide), of_nxt (by decide), of_nxt (by decide), of_nxt (by decide),
    of_nxt (by decide)⟩

theorem witness_StackFaultsAreTaken : 15 ≤ ({ State.reset with sp := 15 } : State).sp.toNat ∧ State.reset.sp = 0 := by
  decide

theorem witness_KeyRangeFaultIsTaken : 16 ≤ ((withRegs State.reset [(5, 16)]).reg 5).toNat := by decide

theorem witness_MemRangeFaultIsTaken :
    (0 < accessLength (.drw 0 1 3) ∧ memSize < ({ State.reset with i := 0xFFE } : State).i.toNat + accessLength (.drw 0 1 3)) ∧
    (0 < accessLength (.ldB 3) ∧ memSize < ({ State.reset with i := 0xFFE } : State).i.toNat + accessLength (.ldB 3)) ∧
    (0 < accessLength (.storeRegs 0) ∧
      memSize < ({ State.reset with i := 0x1000 } : State).i.toNat + accessLength (.storeRegs 0)) ∧
    (0 < accessLength (.loadRegs 15) ∧
      memSize < ({ State.reset with i := 0xFF1 } : State).i.toNat + accessLength (.loadRegs 15)) := by
  decide

/-- The invariant of a state that the model's checks can evaluate. -/
theorem reset_inv : State.reset.Inv := by
  refine ⟨?_, ?_, ?_, ?_, ?_, ?_⟩ <;> decide

theorem witness_StepKeepsInvariant : State.reset.Inv ∧ ∃ t, step State.reset = .next t ∧ t.pc = 0x202 :=
  ⟨reset_inv, of_nxt (by decide)⟩

theorem witness_TransactionsKeepInvariant : State.reset.Inv := reset_inv

theorem witness_ExecChangesOnlyItsParts : (∃ t, exec (.addReg 1 2) State.reset = .next t ∧ t.normalEnd) ∧
    (∃ t, exec (.ret 0x0E) State.reset = .next t ∧ t.halted) :=
  ⟨of_nxt (by decide), of_nxt (by decide)⟩

theorem witness_OnlyNamedInstructionsWrite :
    (∃ t, step ((at200 0x00E0).setFb (Framebuffer.blank.toggle 5 5)) = .next t ∧ t.fb ≠ Framebuffer.blank.toggle 5 5) ∧
    (∃ t, step { at200 0xF055 with i := 0x050 } = .next t ∧ t.mem.read 0x050 ≠ (at200 0xF055).mem.read 0x050) ∧
    (∃ t, step (at200 0xA001) = .next t ∧ t.i ≠ (at200 0xA001).i) ∧
    (∃ t, step (at200 0x2300) = .next t ∧ t.stack ≠ (at200 0x2300).stack ∧ t.sp ≠ (at200 0x2300).sp) ∧
    (∃ t, step (withKeys (at200 0xF40A) [15]) = .next t ∧ t.wk ≠ (at200 0xF40A).wk) ∧
    (∃ t, step (at200 0x8125) = .next t ∧ t.reg vf ≠ (at200 0x8125).reg vf) :=
  ⟨of_nxt (by decide), of_nxt (by decide), of_nxt (by decide), of_nxt (by decide), of_nxt (by decide),
    of_nxt (by decide)⟩

theorem witness_SoundTimerAndFaultAreUnread : (∃ t, exec (.ldSTVx 0) State.reset = .next t ∧ t.normalEnd) ∧
    (∃ t, exec (.addI 0) State.reset = .next t ∧ t.normalEnd) ∧ (∃ t, exec (.ret 0) State.reset = .next t ∧ t.halted) :=
  ⟨of_nxt (by decide), of_nxt (by decide), of_nxt (by decide)⟩

theorem witness_CallPushesAndJumps : ({ State.reset with sp := 14 } : State).sp.toNat < 15 ∧ State.reset.sp.toNat < 15 := by
  decide

theorem witness_ReturnPops : ({ State.reset with sp := 1 } : State).sp ≠ 0 ∧
    ({ State.reset with sp := 16 } : State).sp ≠ 0 := by
  decide

/-- The return runs on the state the call leaves, so sp and the stack are the call's. -/
theorem witness_CallReturnRoundTrip : ({ State.reset with sp := 14 } : State).sp.toNat < 15 ∧
    ∃ t, exec (.call 0x300) { State.reset with sp := 14 } = .next t ∧ t.sp = 15 :=
  ⟨by decide, of_nxt (by decide)⟩

/-- For AddSetsCarry, SubtractSetsNotBorrow, ShiftsSetBitShiftedOut: the last register that is not VF. -/
theorem witness_flag_register : (0xE : Nibble) ≠ vf := by decide

/-- Either side of the hypothesis alone: n = 0 with I past memory, and the last I of 15 rows. -/
theorem witness_DrawTogglesCoveredPixels :
    ((0 : Nibble) = 0 ∧ ¬ ({ State.reset with i := 0x1001 } : State).i.toNat + (0 : Nibble).toNat ≤ memSize) ∧
    ((15 : Nibble) ≠ 0 ∧ ({ State.reset with i := 0xFF1 } : State).i.toNat + (15 : Nibble).toNat ≤ memSize) := by
  decide

/-- The second draw runs on the state the first leaves, so the equalities between the two hold. -/
theorem witness_DoubleDrawRestoresFramebuffer : (0 : Nibble) ≠ vf ∧ (1 : Nibble) ≠ vf ∧
    ((5 : Nibble) = 0 ∨ ({ State.reset with i := 0x050 } : State).i.toNat + (5 : Nibble).toNat ≤ memSize) ∧
    ∃ t, exec (.drw 0 1 5) { State.reset with i := 0x050 } = .next t ∧ t.fb.pixel 0 0 = true :=
  ⟨by decide, by decide, by decide, of_nxt (by decide)⟩

theorem witness_KeySkips : ((withRegs State.reset [(5, 15)]).reg 5).toNat = (15 : Fin 16).val ∧
    (State.reset.reg 5).toNat = (0 : Fin 16).val := by
  decide

theorem witness_WaitForKeyMachine :
    (State.reset.wk = .idle ∧ ∀ k : Fin 16, State.reset.keys[k] = false) ∧
    ((withKeys State.reset [9, 3]).wk = .idle ∧ (withKeys State.reset [9, 3]).keys[(3 : Fin 16)] = true ∧
      ∀ j : Fin 16, j < 3 → (withKeys State.reset [9, 3]).keys[j] = false) ∧
    (((withKeys State.reset [15]).setWk (.keyLatched 15)).wk = .keyLatched 15 ∧
      ((withKeys State.reset [15]).setWk (.keyLatched 15)).keys[(15 : Fin 16)] = true) ∧
    ((State.reset.setWk (.keyLatched 0)).wk = .keyLatched 0 ∧
      (State.reset.setWk (.keyLatched 0)).keys[(0 : Fin 16)] = false) := by
  decide

theorem witness_WaitWithoutKeyKeepsTicking : (at200 0xF40A).normalEnd ∧ (at200 0xF40A).fetchable ∧
    (at200 0xF40A).wordAt = encode (.ldVxK 4) ∧ (at200 0xF40A).wk = .idle ∧ ∀ k : Fin 16, (at200 0xF40A).keys[k] = false := by
  decide

/-- Three cycles: a timer write, a no-op, LD V1, DT. -/
def timerRun (w : Nat) : Nat → State
  | 0 => withBytes (withRegs (at200 w) [(2, 5)]) 0x202 [0x80, 0x08, 0xF1, 0x07]
  | j + 1 => (nxt (step (timerRun w j))).getD State.reset

/-- One cycle of `timerRun` is a cycle that the host may drive. -/
theorem timerRun_cycle {w j : Nat} (h : (nxt (step (timerRun w j))).isSome = true)
    (hr : (timerRun w j).randIn = none) : CycleTo (timerRun w j) (timerRun w (j + 1)) := by
  obtain ⟨t, ht⟩ := Option.isSome_iff_exists.mp h
  refine ⟨(timerRun w j).keys, none, ?_⟩
  have e : ({ timerRun w j with keys := (timerRun w j).keys, randIn := none } : State) = timerRun w j := by
    rw [← hr]
  rw [e, timerRun, ht]
  cases hs : step (timerRun w j) with
  | next u => rw [hs] at ht; exact congrArg _ (Option.some.inj ht)
  | fault r => rw [hs] at ht; cases ht
  | refused r => rw [hs] at ht; cases ht

theorem witness_WrittenTimerCountsCycles :
    (∀ j < 2, CycleTo (timerRun 0xF215 j) (timerRun 0xF215 (j + 1))) ∧ (∀ j ≤ 2, (timerRun 0xF215 j).normalEnd) ∧
    decodeWord (timerRun 0xF215 0).wordAt = .ldDTVx 2 ∧ decodeWord (timerRun 0xF215 1).wordAt = .noop8 0x008 ∧
    decodeWord (timerRun 0xF215 2).wordAt = .ldVxDT 1 ∧ CycleTo (timerRun 0xF215 2) (timerRun 0xF215 3) ∧
    (timerRun 0xF215 3).normalEnd := by
  refine ⟨fun j hj => ?_, by decide, by decide, by decide, by decide, timerRun_cycle (by decide) (by decide), by decide⟩
  rcases j with _ | _ | j
  · exact timerRun_cycle (by decide) (by decide)
  · exact timerRun_cycle (by decide) (by decide)
  · omega

theorem witness_WrittenTimerCountsCycles_sound :
    CycleTo (timerRun 0xF218 0) (timerRun 0xF218 1) ∧ (∀ j ≤ 1, (timerRun 0xF218 j).normalEnd) ∧
    decodeWord (timerRun 0xF218 0).wordAt = .ldSTVx 2 :=
  ⟨timerRun_cycle (by decide) (by decide), by decide, by decide⟩

/-- For StoreBcdWritesDigits, StoreRegistersToMemory and LoadRegistersFromMemory: the last I that is in range. -/
theorem witness_index_in_range : ({ State.reset with i := 0xFFD } : State).i.toNat + 3 ≤ memSize ∧
    ({ State.reset with i := 0xFF0 } : State).i.toNat + (15 : Nibble).toNat < memSize ∧
    ({ State.reset with i := 0xFFF } : State).i.toNat + (0 : Nibble).toNat < memSize := by
  decide

/-- The addresses around the font: 0x04F and 0x0A0 read 0, 0x050 and 0x09F are the font's first and last byte. -/
theorem witness_ResetState_font : State.reset.mem.read 0x04F = 0 ∧ State.reset.mem.read 0x0A0 = 0 ∧
    State.reset.mem.read 0x050 = 0xF0 ∧ State.reset.mem.read 0x09F = 0x80 ∧ State.reset.mem.read 0x200 = 0 := by
  decide

/-- A Reset out of a halted block with a key held, a latched key and a written byte. -/
theorem witness_ResetState :
    let s : State := { (withBytes (withKeys State.reset [7]) 0x050 [0xAA]).setWk (.keyLatched 7) with
      faultReg := ⟨.stackUnderflow, 0x200, 0x00EE, 0⟩ }
    s.halted ∧ ∃ t, transact .reset s = .next t ∧ t.normalEnd ∧ t.wk = .idle ∧ t.keys[7] = false ∧
      t.mem.read 0x050 = 0xF0 :=
  ⟨by decide, of_nxt (by decide)⟩

theorem witness_OnlyResetEndsHalt :
    ({ State.reset with faultReg := ⟨.fetchRange, 0xFFF, 0, 0xFFF⟩ } : State).halted ∧
    Transaction.step 0 ≠ .reset ∧ Transaction.load [] ≠ .reset := by
  decide

theorem witness_StepTransactionRunsOneCycle : (at200 0xC30F).normalEnd ∧ (at200 0xC30F).fetchable ∧
    decodeWord (at200 0xC30F).wordAt = .rnd 0x3 0x0F := by
  decide

theorem witness_LoadWritesImage : (List.replicate 3584 (0 : Byte)).length ≤ 3584 ∧
    3584 < (List.replicate 3585 (0 : Byte)).length ∧ ([] : List Byte).length ≤ 3584 :=
  ⟨Nat.le_of_eq List.length_replicate, Nat.lt_of_lt_of_eq (Nat.lt_succ_self 3584) List.length_replicate.symm,
    Nat.zero_le _⟩

theorem witness_StoreIsSeenByNextFetch :
    let s : State := { withRegs (at200 0xF155) [(0, 0x72), (1, 0x05)] with i := 0x202 }
    s.normalEnd ∧ s.fetchable ∧ s.wordAt = encode (.storeRegs 1) ∧ s.i.toNat + (1 : Nibble).toNat < memSize ∧
      (0 : Nibble).toNat + 1 ≤ (1 : Nibble).toNat ∧ s.pc.toNat + 2 = s.i.toNat + (0 : Nibble).toNat ∧
      ∃ t, step s = .next t ∧ t.wordAt = 0x7205 :=
  ⟨by decide, by decide, by decide, by decide, by decide, by decide, of_nxt (by decide)⟩

end Sys2Proof.Tests
end

section
/-! PROOFS. The cycle and its dispatch (40_cycle_dispatch.md): what a cycle that does not fault leaves in the timers, and
the unmapped words. -/

namespace Sys2Proof.Machine

/-! ### The cycle -/

/-- A cycle that does not fault is the execute phase on the advanced state, and then the tick. -/
theorem step_of_normalEnd {s t : State} (h : step s = .next t) (hn : t.normalEnd) :
    ∃ u, exec (decodeWord s.wordAt) s.advance = .next u ∧ t = tick u := by
  obtain ⟨-, ⟨-, rfl⟩ | ⟨-, u, hu, rfl⟩⟩ := step_cases h
  · cases hn
  · by_cases hun : u.normalEnd
    · exact ⟨u, hu, if_pos hun⟩
    · rw [if_neg hun] at hn
      exact absurd hn hun

/-- The cycle of a word that decodes to its instruction runs that instruction. -/
theorem step_of_wordAt {i : Instr} {s : State} (hd : decodeWord (encode i) = i) (hn : s.normalEnd)
    (hf : s.fetchable) (hw : s.wordAt = encode i) : step s = endCycle (exec i s.advance) := by
  rw [step_of_fetchable hn hf, hw, hd]

/-- An execute phase that raises nothing ends its cycle with the tick. -/
theorem endCycle_of_normalEnd {t : State} (h : t.normalEnd) : endCycle (.next t) = .next (tick t) :=
  congrArg Host.Outcome.next (if_pos h)

/-! ### The timers in the execute phase -/

/-- Both timers of `t` are those of `s`. -/
def SameTimers (s t : State) : Prop := t.dt = s.dt ∧ t.st = s.st

/-- A rule that keeps the timers where it answers keeps them where it raises too: the fault is taken in a state that
has them. -/
theorem SameTimers.of_complete {i : Instr} {s t : State} {r : Except Raise State}
    (hr : ∀ u, r = .ok u → SameTimers s u) (h : complete i s r = .next t) : SameTimers s t := by
  obtain hok | ⟨e, -, rfl⟩ := complete_cases h
  · exact hr t hok
  · exact ⟨rfl, rfl⟩

theorem SameTimers.skipIf (s : State) (c : Bool) : SameTimers s (s.skipIf c) :=
  ⟨State.skipIf_dt s c, State.skipIf_st s c⟩

theorem SameTimers.of_popPc {p : RangePolicy} {s u : State} (h : popPc p s = .ok u) : SameTimers s u := by
  unfold popPc at h
  split at h <;> cases h
  exact ⟨rfl, rfl⟩

theorem SameTimers.of_pushPc {p : RangePolicy} {w : Word} {s u : State} (h : pushPc p w s = .ok u) :
    SameTimers s u := by
  unfold pushPc at h
  split at h <;> cases h
  exact ⟨rfl, rfl⟩

theorem SameTimers.of_skipOnKey {p : RangePolicy} {x : Nibble} {want : Bool} {s u : State}
    (h : skipOnKey p x want s = .ok u) : SameTimers s u := by
  unfold skipOnKey at h
  split at h <;> cases h
  exact .skipIf s _

theorem SameTimers.of_storeAtIndex {p : RangePolicy} {bs : List Byte} {s u : State}
    (h : storeAtIndex p bs s = .ok u) : SameTimers s u := by
  unfold storeAtIndex at h
  split at h <;> cases h
  exact ⟨rfl, rfl⟩

theorem SameTimers.of_loadFromIndex {p : RangePolicy} {n : Nat} {s u : State}
    (h : loadFromIndex p n s = .ok u) : SameTimers s u := by
  unfold loadFromIndex at h
  split at h <;> cases h
  rw [setRegs_eq]
  exact ⟨rfl, rfl⟩

theorem SameTimers.of_drawSprite {cfg : Config} {x y n : Nibble} {s u : State}
    (h : drawSprite cfg x y n s = .ok u) : SameTimers s u := by
  unfold drawSprite at h
  split at h <;> cases h
  exact ⟨rfl, rfl⟩

theorem SameTimers.waitForKey (x : Nibble) (s : State) : SameTimers s (waitForKey x s) := by
  obtain ⟨-, -, h⟩ | ⟨k, -, -, h⟩ | ⟨k, -, -, h⟩ | ⟨k, -, -, h⟩ := waitForKey_cases x s <;>
    (rw [h]; exact ⟨rfl, rfl⟩)

/-- An execute phase keeps both timers, unless it is that of LD DT, Vx or of LD ST, Vx. -/
theorem exec_sameTimers {i : Instr} {s t : State} (h : exec i s = .next t) (hdt : ∀ x, i ≠ .ldDTVx x)
    (hst : ∀ x, i ≠ .ldSTVx x) : SameTimers s t := by
  cases i with
  | ldDTVx x => exact absurd rfl (hdt x)
  | ldSTVx x => exact absurd rfl (hst x)
  | ret ign => exact .of_complete (fun _ => .of_popPc) h
  | call nnn => exact .of_complete (fun _ => .of_pushPc) h
  | skp x ign | sknp x ign => exact .of_complete (fun _ => .of_skipOnKey) h
  | drw x y n => exact .of_complete (fun _ => .of_drawSprite) h
  | ldB x | storeRegs x => exact .of_complete (fun _ => .of_storeAtIndex) h
  | loadRegs x => exact .of_complete (fun _ => .of_loadFromIndex) h
  | ldVxK x => cases h; exact .waitForKey x s
  | seImm x kk | sneImm x kk | seReg x y ign | sneReg x y ign => cases h; exact .skipIf s _
  | _ => cases h; exact ⟨rfl, rfl⟩

/-- DT after an execute phase, which only LD DT, Vx writes (44_keypad_timers.md R185). -/
theorem exec_dt {i : Instr} {s t : State} (h : exec i s = .next t) (hdt : ∀ x, i ≠ .ldDTVx x) : t.dt = s.dt := by
  by_cases hst : ∃ x, i = .ldSTVx x
  · obtain ⟨x, rfl⟩ := hst
    cases h
    rfl
  · exact (exec_sameTimers h hdt (not_exists.mp hst)).1

/-- ST after an execute phase, which only LD ST, Vx writes (44_keypad_timers.md R186). -/
theorem exec_st {i : Instr} {s t : State} (h : exec i s = .next t) (hst : ∀ x, i ≠ .ldSTVx x) : t.st = s.st := by
  by_cases hdt : ∃ x, i = .ldDTVx x
  · obtain ⟨x, rfl⟩ := hdt
    cases h
    rfl
  · exact (exec_sameTimers h (not_exists.mp hdt) hst).2

end Sys2Proof.Machine

namespace Sys2Proof

/-! ### The unmapped words -/

/-! A word whose key is unmapped in its family decodes at the second level to the family's no-op (30_encoding.md R77). -/

theorem decode0_of_unmapped {w : Word} (h : fieldN w ∉ keysOf0) : decode0 w = .noop0 (fieldNNN w) := by
  simp only [keysOf0, List.mem_cons, not_or] at h
  simp only [decode0, h, if_false]

theorem decode8_of_unmapped {w : Word} (h : fieldN w ∉ keysOf8) : decode8 w = .noop8 (fieldNNN w) := by
  simp only [keysOf8, List.mem_cons, not_or] at h
  simp only [decode8, h, if_false]

theorem decodeE_of_unmapped {w : Word} (h : fieldN w ∉ keysOfE) : decodeE w = .noopE (fieldNNN w) := by
  simp only [keysOfE, List.mem_cons, not_or] at h
  simp only [decodeE, h, if_false]

theorem decodeF_of_unmapped {w : Word} (h : fieldKK w ∉ keysOfF) : decodeF w = .noopF (fieldNNN w) := by
  simp only [keysOfF, List.mem_cons, not_or] at h
  simp only [decodeF, h, if_false]

/-! A well-formed no-op is what its word decodes to, with its operand bits kept. -/

theorem decodeWord_encode_noop0 {arg : Addr12} (h : (Instr.noop0 arg).wellFormed = true) :
    decodeWord (encode (.noop0 arg)) = .noop0 arg := by
  obtain ⟨hop, hnnn, hkey, -⟩ := fields_A 0x0#4 arg
  have hun : keyN arg ∉ keysOf0 := by simpa [Instr.wellFormed] using h
  simp [encode, decodeWord, hop, decode0_of_unmapped (hkey.symm ▸ hun), hnnn]

theorem decodeWord_encode_noop8 {arg : Addr12} (h : (Instr.noop8 arg).wellFormed = true) :
    decodeWord (encode (.noop8 arg)) = .noop8 arg := by
  obtain ⟨hop, hnnn, hkey, -⟩ := fields_A 0x8#4 arg
  have hun : keyN arg ∉ keysOf8 := by simpa [Instr.wellFormed] using h
  simp [encode, decodeWord, hop, decode8_of_unmapped (hkey.symm ▸ hun), hnnn]

theorem decodeWord_encode_noopE {arg : Addr12} (h : (Instr.noopE arg).wellFormed = true) :
    decodeWord (encode (.noopE arg)) = .noopE arg := by
  obtain ⟨hop, hnnn, hkey, -⟩ := fields_A 0xE#4 arg
  have hun : keyN arg ∉ keysOfE := by simpa [Instr.wellFormed] using h
  simp [encode, decodeWord, hop, decodeE_of_unmapped (hkey.symm ▸ hun), hnnn]

theorem decodeWord_encode_noopF {arg : Addr12} (h : (Instr.noopF arg).wellFormed = true) :
    decodeWord (encode (.noopF arg)) = .noopF arg := by
  obtain ⟨hop, hnnn, -, hkey⟩ := fields_A 0xF#4 arg
  have hun : keyKK arg ∉ keysOfF := by simpa [Instr.wellFormed] using h
  simp [encode, decodeWord, hop, decodeF_of_unmapped (hkey.symm ▸ hun), hnnn]

end Sys2Proof

namespace Sys2Proof.Machine

/-- The no-ops of the four families that dispatch twice (40_cycle_dispatch.md R95). -/
def IsNoOp (i : Instr) (arg : Addr12) : Prop :=
  i = .noop0 arg ∨ i = .noop8 arg ∨ i = .noopE arg ∨ i = .noopF arg

theorem exec_of_isNoOp {i : Instr} {arg : Addr12} (h : IsNoOp i arg) (s : State) : exec i s = .next s := by
  rcases h with rfl | rfl | rfl | rfl <;> rfl

theorem decodeWord_encode_of_isNoOp {i : Instr} {arg : Addr12} (h : IsNoOp i arg) (hw : i.wellFormed = true) :
    decodeWord (encode i) = i := by
  rcases h with rfl | rfl | rfl | rfl
  · exact decodeWord_encode_noop0 hw
  · exact decodeWord_encode_noop8 hw
  · exact decodeWord_encode_noopE hw
  · exact decodeWord_encode_noopF hw

/-! ### The obligations -/

/-- Settles O9: a cycle that does not fault ends with the tick of what the execute phase left, and the execute phase
writes DT only in LD DT, Vx and ST only in LD ST, Vx. -/
theorem timersTickEveryCycle : Obligations.TimersTickEveryCycle := by
  intro s t h hn
  obtain ⟨u, hu, rfl⟩ := step_of_normalEnd h hn
  rw [tick_dt, tick_st, toNat_countDown, toNat_countDown]
  refine ⟨fun hdt => ?_, fun hst => ?_, fun x hx => ?_, fun x hx => ?_, fun x hx => ?_⟩
  · rw [exec_dt hu hdt, State.advance_dt]
  · rw [exec_st hu hst, State.advance_st]
  · rw [hx] at hu
    cases hu
    rfl
  · rw [hx] at hu
    cases hu
    rfl
  · rw [hx] at hu
    obtain rfl : s.advance.setReg x s.advance.dt = u := Host.Outcome.next.inj hu
    simp

/-- Settles O10: an unmapped word decodes to its family's no-op, whose execute phase is the identity. -/
theorem unmappedWordsAreNoOps : Obligations.UnmappedWordsAreNoOps := by
  intro i arg s hi
  refine ⟨exec_of_isNoOp hi s, fun hwf hn hf hw => ?_⟩
  calc step s
      = endCycle (exec i s.advance) := step_of_wordAt (decodeWord_encode_of_isNoOp hi hwf) hn hf hw
    _ = endCycle (.next s.advance) := by rw [exec_of_isNoOp hi]
    _ = .next (tick s.advance) := endCycle_of_normalEnd hn

end Sys2Proof.Machine
end

section
/-! PROOFS. Control transfer and skips (41_control_flow.md): where the jumps and the four register skips leave pc, and that
they change nothing else. -/

namespace Sys2Proof.Machine

/-! ### Jumps -/

/-- A jump writes pc alone. -/
theorem OnlyChanges.jump (s : State) (target : Word) : OnlyChanges (· = .pc) s (s.jump target) :=
  OnlyChanges.setPc s target

/-- An address operand is zero-extended (30_encoding.md R73). -/
@[simp] theorem toNat_addrOperand (nnn : Addr12) : (addrOperand nnn).toNat = nnn.toNat :=
  BitVec.toNat_setWidth_of_le (by decide)

/-- The target of JP V0, nnn is the exact sum: the greatest, 0xFFF + 0xFF, fits in 16 bits (41_control_flow.md R118). -/
@[simp] theorem toNat_offsetTarget (s : State) (nnn : Addr12) :
    (offsetTarget s nnn).toNat = nnn.toNat + (s.reg 0).toNat := by
  have hnnn := nnn.isLt
  have hv0 := (s.reg 0).isLt
  rw [offsetTarget, BitVec.toNat_add, toNat_addrOperand, BitVec.toNat_setWidth_of_le (by decide),
    Nat.mod_eq_of_lt (by omega)]

/-! ### Skips -/

/-- A skip that is taken adds 2 to pc, modulo 65536 (41_control_flow.md R110). -/
theorem toNat_skipIf_pc (s : State) (c : Bool) :
    (s.skipIf c).pc.toNat = if c then (s.pc.toNat + 2) % 65536 else s.pc.toNat := by
  cases c
  · rfl
  · exact BitVec.toNat_add s.pc 2

/-- An instruction whose rule is to skip where two bytes are equal. -/
theorem exec_skip_of_eq {i : Instr} {s : State} {a b : Byte} (h : exec i s = .next (s.skipIf (a == b))) :
    ∃ t, exec i s = .next t ∧
      t.pc.toNat = (if a.toNat = b.toNat then (s.pc.toNat + 2) % 65536 else s.pc.toNat) ∧
      OnlyChanges (· = .pc) s t := by
  refine ⟨_, h, ?_, .skipIf s _⟩
  simp only [toNat_skipIf_pc, beq_iff_eq, BitVec.toNat_inj]

/-- An instruction whose rule is to skip where two bytes differ. -/
theorem exec_skip_of_ne {i : Instr} {s : State} {a b : Byte} (h : exec i s = .next (s.skipIf (a != b))) :
    ∃ t, exec i s = .next t ∧
      t.pc.toNat = (if a.toNat = b.toNat then s.pc.toNat else (s.pc.toNat + 2) % 65536) ∧
      OnlyChanges (· = .pc) s t := by
  refine ⟨_, h, ?_, .skipIf s _⟩
  simp only [toNat_skipIf_pc, bne_iff_ne, BitVec.toNat_inj, ne_eq, ite_not]

/-! ### The obligations -/

/-- Settles O23: JP jumps to its address operand, which is zero-extended. -/
theorem jumpSetsPc : Obligations.JumpSetsPc :=
  fun nnn s => ⟨s.jump (addrOperand nnn), rfl, toNat_addrOperand nnn, .jump s _⟩

/-- Settles O24: JP V0 jumps to a target that is the exact sum. -/
theorem jumpWithOffsetAddsV0 : Obligations.JumpWithOffsetAddsV0 :=
  fun nnn s => ⟨s.jump (offsetTarget s nnn), rfl, toNat_offsetTarget s nnn, .jump s _⟩

/-- Settles O28: both compare V[x] with kk. -/
theorem skipsOnImmediate : Obligations.SkipsOnImmediate :=
  fun _ _ _ => ⟨exec_skip_of_eq rfl, exec_skip_of_ne rfl⟩

/-- Settles O29: both compare V[x] with V[y], and neither reads the ignored nibble. -/
theorem skipsOnRegisters : Obligations.SkipsOnRegisters :=
  fun _ _ _ _ => ⟨exec_skip_of_eq rfl, exec_skip_of_ne rfl⟩

end Sys2Proof.Machine
end

section
/-! PROOFS. The ALU instructions that write one register and no flag (42_alu.md sections 2 and 3): what V[x] becomes,
and that nothing else changes. -/

namespace Sys2Proof.Machine

theorem State.reg_setReg_same (s : State) (r : Nibble) (b : Byte) : (s.setReg r b).reg r = b := by
  rw [State.reg_setReg, if_pos rfl]

/-! ### The obligations -/

/-- Settles O30: the byte written is kk itself, or the 8-bit sum, which wraps modulo 256. -/
theorem immediateLoadAndAdd : Obligations.ImmediateLoadAndAdd := by
  intro x kk s
  refine ⟨⟨s.setReg x kk, rfl, s.reg_setReg_same x kk, .setReg s x _⟩,
    ⟨s.setReg x (s.reg x + kk), rfl, ?_, .setReg s x _⟩⟩
  rw [State.reg_setReg_same, BitVec.toNat_add]

/-- Settles O32: each operation of the model on two bytes is the Boolean operation on each of their bits. -/
theorem registerLogic : Obligations.RegisterLogic := by
  intro x y s
  refine ⟨⟨s.setReg x (s.reg x ||| s.reg y), rfl, fun b => ?_, .setReg s x _⟩,
    ⟨s.setReg x (s.reg x &&& s.reg y), rfl, fun b => ?_, .setReg s x _⟩,
    ⟨s.setReg x (s.reg x ^^^ s.reg y), rfl, fun b => ?_, .setReg s x _⟩⟩
  · rw [State.reg_setReg_same, BitVec.getLsbD_or]
  · rw [State.reg_setReg_same, BitVec.getLsbD_and]
  · rw [State.reg_setReg_same, BitVec.getLsbD_xor]

end Sys2Proof.Machine
end

section
/-! PROOFS. The display (43_display.md section 1): CLS leaves the blank framebuffer and every other part of the state. -/

namespace Sys2Proof.Machine

/-- A frame that allows every pixel to change holds of any new framebuffer. -/
theorem OnlyChanges.setFb_anyPixel (s : State) (fb : Framebuffer) :
    OnlyChanges (fun p => ∃ x y, p = .pixel x y) s (s.setFb fb) :=
  .setFb _ s fb fun x y hp => absurd ⟨x, y, rfl⟩ hp

/-! ### The obligations -/

/-- Settles O37: the next state holds the blank framebuffer, and the ignored bits are not read. -/
theorem clearScreenTurnsAllOff : Obligations.ClearScreenTurnsAllOff :=
  fun _ s => ⟨s.setFb .blank, rfl, Framebuffer.pixel_blank, .setFb_anyPixel s .blank⟩

end Sys2Proof.Machine
end

section
/-! PROOFS. The timer transfers (44_keypad_timers.md R183, R185, R186): the value each instruction moves in its execute
phase, before the cycle's tick, and that nothing else changes. -/

namespace Sys2Proof.Machine

/-! ### The obligations -/

/-- Settles O41: each execute phase is one field's write, of the value that the state it starts from holds. -/
theorem timerTransfers : Obligations.TimerTransfers := by
  intro x s
  exact ⟨⟨s.setReg x s.dt, rfl, s.reg_setReg_same x s.dt, .setReg s x _⟩,
    ⟨s.setDt (s.reg x), rfl, s.setDt_dt (s.reg x), .setDt s _⟩,
    ⟨s.setSt (s.reg x), rfl, s.setSt_st (s.reg x), .setSt s _⟩⟩

end Sys2Proof.Machine
end

section
/-! PROOFS. The index register (45_index_memory.md R200, R201): what LD I, nnn and ADD I, Vx leave in I, and that
nothing else changes. -/

namespace Sys2Proof.Machine

/-- A byte added to an index value: the sum wraps modulo 65536 (45_index_memory.md R201). -/
theorem toNat_index_add_byte (i : Word) (b : Byte) :
    (i + b.setWidth 16).toNat = (i.toNat + b.toNat) % 65536 := by
  rw [BitVec.toNat_add, BitVec.toNat_setWidth_of_le (by decide)]

/-! ### The obligations -/

/-- Settles O45: each execute phase is one write of I, of the zero-extended operand or of the wrapping 16-bit sum. -/
theorem indexLoadAndAdd : Obligations.IndexLoadAndAdd := by
  intro s
  refine ⟨fun nnn => ⟨s.setIndex (addrOperand nnn), rfl, ?_, .setIndex s _⟩,
    fun x => ⟨s.setIndex (s.i + (s.reg x).setWidth 16), rfl, ?_, .setIndex s _⟩⟩
  · rw [State.setIndex_i, toNat_addrOperand]
  · rw [State.setIndex_i, toNat_index_add_byte]

end Sys2Proof.Machine
end

section
/-! PROOFS. The encoding (30_encoding.md): decoding and encoding undo each other, and the decoder agrees with the opcode
map by mask and match. -/

namespace Sys2Proof

/-! ### From the instruction to the word and back -/

/-- The decoder reads back each field where its format put it: by the format of the instruction (30_encoding.md R72),
and for the no-ops by their key being unmapped. -/
theorem decodeWord_encode {i : Instr} (h : i.wellFormed = true) : decodeWord (encode i) = i := by
  cases i with
  | jp nnn | call nnn | ldI nnn | jpV0 nnn => simp [encode, decodeWord, fields_A]
  | seImm x kk | sneImm x kk | ldImm x kk | addImm x kk | rnd x kk => simp [encode, decodeWord, fields_XK]
  | seReg x y n | sneReg x y n | drw x y n => simp [encode, decodeWord, fields_XYN]
  | cls m | ret m => simp [encode, decodeWord, decode0, fields_N]
  | ldReg x y | orReg x y | andReg x y | xorReg x y | addReg x y | sub x y | shr x y | subn x y | shl x y =>
    simp [encode, decodeWord, decode8, fields_XYN]
  | skp x ign | sknp x ign => simp [encode, decodeWord, decodeE, fields_XYN]
  | ldVxDT x | ldVxK x | ldDTVx x | ldSTVx x | addI x | ldF x | ldB x | storeRegs x | loadRegs x =>
    simp [encode, decodeWord, decodeF, fields_XK]
  | noop0 arg => exact decodeWord_encode_noop0 h
  | noop8 arg => exact decodeWord_encode_noop8 h
  | noopE arg => exact decodeWord_encode_noopE h
  | noopF arg => exact decodeWord_encode_noopF h

/-! ### From the word to the instruction and back -/

/-! A word is its fields put together, in each format of 30_encoding.md R72. -/

theorem concat_fields_A {w : Word} {p : Nibble} (hp : fieldOp w = p) : p ++ fieldNNN w = w := by
  subst hp
  apply BitVec.eq_of_toNat_eq
  have := w.isLt
  rw [toNat_concat, toNat_fieldOp, toNat_fieldNNN]
  omega

theorem concat_fields_XK {w : Word} {p : Nibble} (hp : fieldOp w = p) : p ++ fieldX w ++ fieldKK w = w := by
  subst hp
  apply BitVec.eq_of_toNat_eq
  have := w.isLt
  rw [toNat_concat, toNat_concat, toNat_fieldOp, toNat_fieldX, toNat_fieldKK]
  omega

theorem concat_fields_XYN {w : Word} {p : Nibble} (hp : fieldOp w = p) :
    p ++ fieldX w ++ fieldY w ++ fieldN w = w := by
  subst hp
  apply BitVec.eq_of_toNat_eq
  have := w.isLt
  rw [toNat_concat, toNat_concat, toNat_concat, toNat_fieldOp, toNat_fieldX, toNat_fieldY, toNat_fieldN]
  omega

theorem concat_fields_N {w : Word} {p : Nibble} (hp : fieldOp w = p) : p ++ fieldMid w ++ fieldN w = w := by
  subst hp
  apply BitVec.eq_of_toNat_eq
  have := w.isLt
  rw [toNat_concat, toNat_concat, toNat_fieldOp, toNat_fieldMid, toNat_fieldN]
  omega

/-! The same formats with their key given. -/

theorem concat_fields_N_of_key {w : Word} {p q : Nibble} (hp : fieldOp w = p) (hq : fieldN w = q) :
    p ++ fieldMid w ++ q = w := by
  rw [← hq, concat_fields_N hp]

theorem concat_fields_XY_of_key {w : Word} {p q : Nibble} (hp : fieldOp w = p) (hq : fieldN w = q) :
    p ++ fieldX w ++ fieldY w ++ q = w := by
  rw [← hq, concat_fields_XYN hp]

theorem concat_fields_X_of_key {w : Word} {p : Nibble} {k : Byte} (hp : fieldOp w = p) (hk : fieldKK w = k) :
    p ++ fieldX w ++ k = w := by
  rw [← hk, concat_fields_XK hp]

/-- The secondary keys stand in the operand bits `nnn` (30_encoding.md R75). -/
theorem keyN_fieldNNN (w : Word) : keyN (fieldNNN w) = fieldN w := by
  apply BitVec.eq_of_toNat_eq
  simp only [keyN, BitVec.extractLsb'_toNat, toNat_fieldNNN, toNat_fieldN]
  omega

theorem keyKK_fieldNNN (w : Word) : keyKK (fieldNNN w) = fieldKK w := by
  apply BitVec.eq_of_toNat_eq
  simp only [keyKK, BitVec.extractLsb'_toNat, toNat_fieldNNN, toNat_fieldKK]
  omega

/-! A no-op whose key is unmapped is well-formed (30_encoding.md R77). -/

theorem wellFormed_noop0 {w : Word} (h : fieldN w ∉ keysOf0) : (Instr.noop0 (fieldNNN w)).wellFormed = true := by
  simpa [Instr.wellFormed, keyN_fieldNNN] using h

theorem wellFormed_noop8 {w : Word} (h : fieldN w ∉ keysOf8) : (Instr.noop8 (fieldNNN w)).wellFormed = true := by
  simpa [Instr.wellFormed, keyN_fieldNNN] using h

theorem wellFormed_noopE {w : Word} (h : fieldN w ∉ keysOfE) : (Instr.noopE (fieldNNN w)).wellFormed = true := by
  simpa [Instr.wellFormed, keyN_fieldNNN] using h

theorem wellFormed_noopF {w : Word} (h : fieldKK w ∉ keysOfF) : (Instr.noopF (fieldNNN w)).wellFormed = true := by
  simpa [Instr.wellFormed, keyKK_fieldNNN] using h

/-- An instruction that stands for the word `w`. -/
def StandsFor (w : Word) (i : Instr) : Prop := i.wellFormed = true ∧ encode i = w

theorem standsFor_decode0 {w : Word} (h : fieldOp w = 0x0) : StandsFor w (decode0 w) := by
  unfold decode0
  split_ifs with h0 hE
  · exact ⟨rfl, concat_fields_N_of_key h h0⟩
  · exact ⟨rfl, concat_fields_N_of_key h hE⟩
  · have hkey : fieldN w ∉ keysOf0 := by
      simp only [keysOf0, List.mem_cons, h0, hE, List.not_mem_nil, or_self, not_false_eq_true]
    exact ⟨wellFormed_noop0 hkey, concat_fields_A h⟩

theorem standsFor_decode8 {w : Word} (h : fieldOp w = 0x8) : StandsFor w (decode8 w) := by
  unfold decode8
  split_ifs
  case neg =>
    have hkey : fieldN w ∉ keysOf8 := by
      simp only [keysOf8, List.mem_cons, *, List.not_mem_nil, or_self, not_false_eq_true]
    exact ⟨wellFormed_noop8 hkey, concat_fields_A h⟩
  all_goals exact ⟨rfl, concat_fields_XY_of_key h ‹_›⟩

theorem standsFor_decodeE {w : Word} (h : fieldOp w = 0xE) : StandsFor w (decodeE w) := by
  unfold decodeE
  split_ifs with hE h1
  · exact ⟨rfl, concat_fields_XY_of_key h hE⟩
  · exact ⟨rfl, concat_fields_XY_of_key h h1⟩
  · have hkey : fieldN w ∉ keysOfE := by
      simp only [keysOfE, List.mem_cons, hE, h1, List.not_mem_nil, or_self, not_false_eq_true]
    exact ⟨wellFormed_noopE hkey, concat_fields_A h⟩

theorem standsFor_decodeF {w : Word} (h : fieldOp w = 0xF) : StandsFor w (decodeF w) := by
  unfold decodeF
  split_ifs
  case neg =>
    have hkey : fieldKK w ∉ keysOfF := by
      simp only [keysOfF, List.mem_cons, *, List.not_mem_nil, or_self, not_false_eq_true]
    exact ⟨wellFormed_noopF hkey, concat_fields_A h⟩
  all_goals exact ⟨rfl, concat_fields_X_of_key h ‹_›⟩

/-- An op that is none of the fifteen values below is 0xF, the last branch of the primary level (30_encoding.md R74). -/
theorem op_eq_F {p : Nibble} (h : p ∉ [0x0, 0x1, 0x2, 0x3, 0x4, 0x5, 0x6, 0x7, 0x8, 0x9, 0xA, 0xB, 0xC, 0xD, 0xE]) :
    p = 0xF := by
  revert p
  decide

theorem StandsFor.ite {w : Word} {c : Prop} [Decidable c] {i j : Instr} (hi : c → StandsFor w i)
    (hj : ¬ c → StandsFor w j) : StandsFor w (if c then i else j) := by
  split
  · exact hi ‹_›
  · exact hj ‹_›

/-- Whatever its op, a word decodes to an instruction that stands for it (30_encoding.md R79). -/
theorem standsFor_decodeWord (w : Word) : StandsFor w (decodeWord w) := by
  unfold decodeWord
  refine .ite standsFor_decode0 fun h0 => ?_
  refine .ite (fun h => ⟨rfl, concat_fields_A h⟩) fun h1 => .ite (fun h => ⟨rfl, concat_fields_A h⟩) fun h2 => ?_
  refine .ite (fun h => ⟨rfl, concat_fields_XK h⟩) fun h3 => .ite (fun h => ⟨rfl, concat_fields_XK h⟩) fun h4 => ?_
  refine .ite (fun h => ⟨rfl, concat_fields_XYN h⟩) fun h5 => ?_
  refine .ite (fun h => ⟨rfl, concat_fields_XK h⟩) fun h6 => .ite (fun h => ⟨rfl, concat_fields_XK h⟩) fun h7 => ?_
  refine .ite standsFor_decode8 fun h8 => ?_
  refine .ite (fun h => ⟨rfl, concat_fields_XYN h⟩) fun h9 => ?_
  refine .ite (fun h => ⟨rfl, concat_fields_A h⟩) fun hA => .ite (fun h => ⟨rfl, concat_fields_A h⟩) fun hB => ?_
  refine .ite (fun h => ⟨rfl, concat_fields_XK h⟩) fun hC => .ite (fun h => ⟨rfl, concat_fields_XYN h⟩) fun hD => ?_
  refine .ite standsFor_decodeE fun hE => standsFor_decodeF (op_eq_F ?_)
  simp only [List.mem_cons, h0, h1, h2, h3, h4, h5, h6, h7, h8, h9, hA, hB, hC, hD, hE, List.not_mem_nil, or_self,
    not_false_eq_true]

/-! ### The opcode map -/

/-- A well-formed instruction's word selects the instruction's row (30_encoding.md R76). -/
theorem row_selects_encode {i : Instr} (h : i.wellFormed = true) : i.row.selects (encode i) = true := by
  cases i with
  | cls m => exact Laws.Row.cls m h
  | ret m => exact Laws.Row.ret m h
  | jp nnn | call nnn | ldI nnn | jpV0 nnn => exact Laws.Row.format_A _ nnn
  | seImm x kk | sneImm x kk | ldImm x kk | addImm x kk | rnd x kk => exact Laws.Row.format_XK _ x kk
  | seReg x y n | sneReg x y n | drw x y n => exact Laws.Row.format_XYN _ x y n
  | ldReg x y | orReg x y | andReg x y | xorReg x y | addReg x y | sub x y | shr x y | subn x y | shl x y =>
    exact Laws.Row.format_XY _ _ x y
  | skp x ign | sknp x ign => exact Laws.Row.format_XY _ _ x ign
  | ldVxDT x | ldVxK x | ldDTVx x | ldSTVx x | addI x | ldF x | ldB x | storeRegs x | loadRegs x =>
    exact Laws.Row.format_X _ x _
  | noop0 arg | noop8 arg | noopE arg | noopF arg => exact Laws.Row.format_A _ arg

/-- The row of every instruction but the no-ops is one of the 34 of the map. -/
theorem row_mem_or_isNoOp (i : Instr) : i.row ∈ instructionRows ∨ ∃ arg, Machine.IsNoOp i arg := by
  cases i with
  | noop0 arg | noop8 arg | noopE arg | noopF arg => exact .inr ⟨arg, by simp [Machine.IsNoOp]⟩
  | _ => exact .inl (by simp [Instr.row, instructionRows])

/-- No word selects two rows of the map. -/
theorem row_unique {w : Word} {r q : OpcodeRow} (hr : r ∈ instructionRows) (hq : q ∈ instructionRows)
    (hrw : r.selects w = true) (hqw : q.selects w = true) : r = q := by
  by_contra hne
  simp only [OpcodeRow.selects, beq_iff_eq] at hrw hqw
  have hsymm : Std.Symm (fun r q : OpcodeRow => r.pattern &&& q.mask ≠ q.pattern &&& r.mask) :=
    ⟨fun _ _ h => h.symm⟩
  have hdisj := instructionRows_disjoint.forall hr hq hne
  apply hdisj
  rw [← hrw, ← hqw, BitVec.and_assoc, BitVec.and_assoc, BitVec.and_comm r.mask]

/-- What a row asks of the word that selects it, for a field that its mask covers. -/
theorem field_of_selects {w : Word} {r : OpcodeRow} {k n : Nat} (h : r.selects w = true)
    (hm : r.mask.extractLsb' k n = BitVec.allOnes n) : w.extractLsb' k n = r.pattern.extractLsb' k n := by
  simp only [OpcodeRow.selects, beq_iff_eq] at h
  rw [← h, BitVec.extractLsb'_and, hm, BitVec.and_allOnes]

/-! The rows of each family that dispatches twice look at its key and give it a mapped value (30_encoding.md R75). -/

theorem rows_of_family0 : ∀ r ∈ instructionRows, fieldOp r.pattern = 0x0 →
    fieldN r.mask = BitVec.allOnes 4 ∧ fieldN r.pattern ∈ keysOf0 := by
  decide

theorem rows_of_family8 : ∀ r ∈ instructionRows, fieldOp r.pattern = 0x8 →
    fieldN r.mask = BitVec.allOnes 4 ∧ fieldN r.pattern ∈ keysOf8 := by
  decide

theorem rows_of_familyE : ∀ r ∈ instructionRows, fieldOp r.pattern = 0xE →
    fieldN r.mask = BitVec.allOnes 4 ∧ fieldN r.pattern ∈ keysOfE := by
  decide

theorem rows_of_familyF : ∀ r ∈ instructionRows, fieldOp r.pattern = 0xF →
    fieldKK r.mask = BitVec.allOnes 8 ∧ fieldKK r.pattern ∈ keysOfF := by
  decide

/-- Every row looks at the op (30_encoding.md R74). -/
theorem rows_look_at_op : ∀ r ∈ instructionRows, fieldOp r.mask = BitVec.allOnes 4 := by decide

/-- A row that selects a word of a family that dispatches on n asks for a mapped key. -/
theorem keyN_mem_of_selects {p : Nibble} {arg : Addr12} {keys : List Nibble} {r : OpcodeRow}
    (hr : r ∈ instructionRows)
    (hrows : ∀ r ∈ instructionRows, fieldOp r.pattern = p →
      fieldN r.mask = BitVec.allOnes 4 ∧ fieldN r.pattern ∈ keys)
    (h : r.selects (p ++ arg) = true) : keyN arg ∈ keys := by
  obtain ⟨hp, -, hn, -⟩ := fields_A p arg
  have hop : fieldOp (p ++ arg) = fieldOp r.pattern := field_of_selects h (rows_look_at_op r hr)
  obtain ⟨hmask, hkey⟩ := hrows r hr (hop.symm.trans hp)
  have hfield : fieldN (p ++ arg) = fieldN r.pattern := field_of_selects h hmask
  rwa [← hn, hfield]

/-- A row that selects a word of family 0xF asks for a mapped key. -/
theorem keyKK_mem_of_selects {arg : Addr12} {r : OpcodeRow} (hr : r ∈ instructionRows)
    (h : r.selects (0xF#4 ++ arg) = true) : keyKK arg ∈ keysOfF := by
  obtain ⟨hp, -, -, hk⟩ := fields_A 0xF#4 arg
  have hop : fieldOp (0xF#4 ++ arg) = fieldOp r.pattern := field_of_selects h (rows_look_at_op r hr)
  obtain ⟨hmask, hkey⟩ := rows_of_familyF r hr (hop.symm.trans hp)
  have hfield : fieldKK (0xF#4 ++ arg) = fieldKK r.pattern := field_of_selects h hmask
  rwa [← hk, hfield]

/-- The word of a well-formed no-op selects none of the 34 rows: a row of its family asks for a mapped key. -/
theorem not_selects_of_isNoOp {i : Instr} {arg : Addr12} (hi : Machine.IsNoOp i arg) (hwf : i.wellFormed = true)
    {r : OpcodeRow} (hr : r ∈ instructionRows) : ¬ r.selects (encode i) = true := by
  intro h
  rcases hi with rfl | rfl | rfl | rfl
  · simp [Instr.wellFormed, keyN_mem_of_selects hr rows_of_family0 h] at hwf
  · simp [Instr.wellFormed, keyN_mem_of_selects hr rows_of_family8 h] at hwf
  · simp [Instr.wellFormed, keyN_mem_of_selects hr rows_of_familyE h] at hwf
  · simp [Instr.wellFormed, keyKK_mem_of_selects hr h] at hwf

/-- A no-op keeps the bits 11-0 of its word (30_encoding.md R77). -/
theorem fieldNNN_encode_of_isNoOp {i : Instr} {arg : Addr12} (hi : Machine.IsNoOp i arg) :
    fieldNNN (encode i) = arg := by
  rcases hi with rfl | rfl | rfl | rfl <;> exact (fields_A _ arg).2.1

/-! ### The obligations -/

/-- Settles O1: every format puts its fields where the decoder reads them. -/
theorem encodeThenDecode : Obligations.EncodeThenDecode := fun _ => decodeWord_encode

/-- Settles O2: every leaf of the decoder gives an instruction whose fields, put together, are the word. -/
theorem decodeThenEncode : Obligations.DecodeThenEncode := standsFor_decodeWord

/-- Settles O3: the word is its decoded instruction's, which selects that instruction's row; two rows of the map are
never both selected, and a no-op's word selects none. -/
theorem opcodeMapSelectsRow : Obligations.OpcodeMapSelectsRow := by
  intro w
  obtain ⟨hwf, henc⟩ := standsFor_decodeWord w
  have hsel : (decodeWord w).row.selects w = true := by
    simpa only [henc] using row_selects_encode hwf
  refine ⟨hsel, fun r hr hrw => ?_, fun hnone => ?_⟩
  · obtain hmem | ⟨arg, hno⟩ := row_mem_or_isNoOp (decodeWord w)
    · exact row_unique hmem hr hsel hrw
    · exact absurd (henc.symm ▸ hrw) (not_selects_of_isNoOp hno hwf hr)
  · obtain hmem | ⟨arg, hno⟩ := row_mem_or_isNoOp (decodeWord w)
    · rw [hnone _ hmem] at hsel
      cases hsel
    · have harg : fieldNNN w = arg := by
        rw [← fieldNNN_encode_of_isNoOp hno, henc]
      exact harg ▸ hno

/-- Settles O4: each of the eleven words is decoded by evaluation. -/
theorem sampleWordsDecode : Obligations.SampleWordsDecode := by
  unfold Obligations.SampleWordsDecode
  decide

end Sys2Proof
end

section
/-! PROOFS. The execute phase: what an instruction raises and when, what it changes when it raises nothing, and with the
fetch and the tick what a whole cycle can do (60_exceptions.md section 1, 00_scope.md section 5). -/

namespace Sys2Proof.Machine

/-! ### Reading a frame -/

section
variable {p : Part → Prop} {s t : State} (h : OnlyChanges p s t)
include h

theorem OnlyChanges.reg_eq (r : Nibble) (hp : ¬ p (.reg r)) : t.reg r = s.reg r := h.1 r hp

theorem OnlyChanges.index_eq (hp : ¬ p .index) : t.i = s.i := by
  obtain ⟨-, hi, -⟩ := h
  exact hi hp

theorem OnlyChanges.stackSlot_eq (k : Fin 16) (hp : ¬ p (.stackSlot k)) : t.stack[k] = s.stack[k] := by
  obtain ⟨-, -, -, hstack, -⟩ := h
  exact hstack k hp

theorem OnlyChanges.stack_eq (hp : ∀ k, ¬ p (.stackSlot k)) : t.stack = s.stack :=
  Vector.ext fun k hk => h.stackSlot_eq ⟨k, hk⟩ (hp _)

theorem OnlyChanges.sp_eq (hp : ¬ p .sp) : t.sp = s.sp := by
  obtain ⟨-, -, -, -, hsp, -⟩ := h
  exact hsp hp

theorem OnlyChanges.read_eq (a : Nat) (hp : ¬ p (.byte a)) : t.mem.read a = s.mem.read a := by
  obtain ⟨-, -, -, -, -, -, -, hbyte, -⟩ := h
  exact hbyte a hp

theorem OnlyChanges.fb_eq (hp : ∀ x y, ¬ p (.pixel x y)) : t.fb = s.fb := by
  obtain ⟨-, -, -, -, -, -, -, -, hpixel, -⟩ := h
  exact Framebuffer.ext_pixel fun x y => hpixel x y (hp x y)

theorem OnlyChanges.keys_eq (hp : ∀ k, ¬ p (.key k)) : t.keys = s.keys := by
  obtain ⟨-, -, -, -, -, -, -, -, -, hkey, -⟩ := h
  exact Vector.ext fun k hk => hkey ⟨k, hk⟩ (hp _)

theorem OnlyChanges.wk_eq (hp : ¬ p .wk) : t.wk = s.wk := by
  obtain ⟨-, -, -, -, -, -, -, -, -, -, hwk, -⟩ := h
  exact hwk hp

theorem OnlyChanges.faultReg_eq (hp : ¬ p .faultReg) : t.faultReg = s.faultReg := by
  obtain ⟨-, -, -, -, -, -, -, -, -, -, -, hfault, -⟩ := h
  exact hfault hp

end

/-! ### What is raised, and when -/

/-- Instruction `i` raises `e` in its execute phase on `s` (60_exceptions.md R222, R223, R224). -/
inductive Raises (s : State) : Instr → Raise → Prop
  | underflow (ign : Byte) (h : s.sp = 0) : Raises s (.ret ign) ⟨.stackUnderflow, 0⟩
  | overflow (nnn : Addr12) (h : 15 ≤ s.sp.toNat) : Raises s (.call nnn) ⟨.stackOverflow, s.sp.setWidth 16⟩
  | skp (x ign : Nibble) (h : 16 ≤ (s.reg x).toNat) : Raises s (.skp x ign) ⟨.keyRange, (s.reg x).setWidth 16⟩
  | sknp (x ign : Nibble) (h : 16 ≤ (s.reg x).toNat) : Raises s (.sknp x ign) ⟨.keyRange, (s.reg x).setWidth 16⟩
  | memRange (i : Instr) (hpos : 0 < accessLength i) (h : memSize < s.i.toNat + accessLength i) :
      Raises s i ⟨.memRange, BitVec.ofNat 16 (max s.i.toNat memSize)⟩

theorem Raises.cause_ne_noFault {s : State} {i : Instr} {e : Raise} (h : Raises s i e) : e.cause ≠ .noFault := by
  cases h <;> exact Cause.noConfusion

theorem Raises.cause_ne_pixelRange {s : State} {i : Instr} {e : Raise} (h : Raises s i e) : e.cause ≠ .pixelRange := by
  cases h <;> exact Cause.noConfusion

/-- What is raised depends on sp, the registers and I alone. -/
theorem Raises.congr {s t : State} {i : Instr} {e : Raise} (h : Raises s i e) (hsp : t.sp = s.sp)
    (hreg : ∀ r, t.reg r = s.reg r) (hi : t.i = s.i) : Raises t i e := by
  cases h with
  | underflow ign h => exact .underflow ign (hsp.trans h)
  | overflow nnn h =>
    rw [← hsp] at h ⊢
    exact .overflow nnn h
  | skp x ign h =>
    rw [← hreg] at h ⊢
    exact .skp x ign h
  | sknp x ign h =>
    rw [← hreg] at h ⊢
    exact .sknp x ign h
  | memRange _ hpos h =>
    rw [← hi] at h ⊢
    exact .memRange i hpos h

theorem firstRegs_succ_ne_nil (s : State) (n : Nat) : s.firstRegs (n + 1) ≠ [] := by
  intro h
  simpa using congrArg List.length h

/-- LD [I], Vx stores x + 1 bytes: there are never more than 16. -/
theorem length_firstRegs_succ (s : State) (x : Nibble) : (s.firstRegs (x.toNat + 1)).length = x.toNat + 1 := by
  rw [State.length_firstRegs, Nat.min_eq_left (nibble_lt x)]

theorem skipOnKey_out_of_range {x : Nibble} (want : Bool) {s : State} (h : 16 ≤ (s.reg x).toNat) :
    skipOnKey .fault x want s = .error ⟨.keyRange, (s.reg x).setWidth 16⟩ := by
  simp [skipOnKey, keyRead_out_of_range s _ h]

/-- A raise is taken: every effect of the execute phase is discarded (60_exceptions.md R221). -/
theorem exec_of_raises {s : State} {i : Instr} {e : Raise} (h : Raises s i e) : exec i s = .next (s.raiseIn i e) := by
  cases h with
  | underflow ign h => exact complete_error (popPc_empty s h)
  | overflow nnn h => exact complete_error (pushPc_full _ s h)
  | skp x ign h | sknp x ign h => exact complete_error (skipOnKey_out_of_range _ h)
  | memRange _ hpos h =>
    cases i with
    | drw x y n =>
      have hn : n ≠ 0 := by rintro rfl; exact Nat.lt_irrefl 0 hpos
      exact complete_error (drawSprite_out_of_range x y n s hn h)
    | ldB x => exact complete_error (storeAtIndex_out_of_range _ s (List.cons_ne_nil _ _) h)
    | storeRegs x =>
      exact complete_error (storeAtIndex_out_of_range _ s (firstRegs_succ_ne_nil s _)
        (by rw [length_firstRegs_succ]; exact h))
    | loadRegs x => exact complete_error (loadFromIndex_out_of_range _ s hpos h)
    | _ => exact absurd hpos (Nat.lt_irrefl 0)

theorem complete_next (i : Instr) (s : State) (r : Except Raise State) : ∃ t, complete i s r = .next t := by
  cases r with
  | ok u => exact ⟨u, rfl⟩
  | error e => exact ⟨s.raiseIn i e, rfl⟩

/-! ### What an instruction that raises nothing does -/

theorem exec_ret_ok (ign : Byte) {s : State} (h : s.sp ≠ 0) :
    exec (.ret ign) s = .next { s with pc := s.stack[slot s.sp], sp := s.sp - 1 } :=
  complete_ok (popPc_ok s h)

theorem exec_call_ok (nnn : Addr12) {s : State} (h : s.sp.toNat < 15) : exec (.call nnn) s = .next
    { s with sp := s.sp + 1, stack := s.stack.set (slot (s.sp + 1)) s.pc, pc := addrOperand nnn } :=
  complete_ok (pushPc_ok _ s h)

theorem skipOnKey_ok (p : RangePolicy) {x : Nibble} (want : Bool) {s : State} (h : (s.reg x).toNat < 16) :
    skipOnKey p x want s = .ok (s.skipIf (s.keys[(s.reg x).toNat] == want)) := by
  simp [skipOnKey, keyRead_ok p s _ h]

theorem exec_skp_ok {x : Nibble} (ign : Nibble) {s : State} (h : (s.reg x).toNat < 16) :
    exec (.skp x ign) s = .next (s.skipIf (s.keys[(s.reg x).toNat] == true)) :=
  complete_ok (skipOnKey_ok _ _ h)

theorem exec_sknp_ok {x : Nibble} (ign : Nibble) {s : State} (h : (s.reg x).toNat < 16) :
    exec (.sknp x ign) s = .next (s.skipIf (s.keys[(s.reg x).toNat] == false)) :=
  complete_ok (skipOnKey_ok _ _ h)

/-- A memory that holds the bytes of a list from `mem[I]` on and is `s.mem` elsewhere, in canonical form if that was. -/
structure StoredAtIndex (s : State) (bs : List Byte) (m : Memory) : Prop where
  stored : ∀ j < bs.length, m.read (s.i.toNat + j) = bs.getD j 0
  elsewhere : ∀ a, (∀ k < bs.length, a ≠ s.i.toNat + k) → m.read a = s.mem.read a
  wf : s.mem.wf → m.wf

/-- Inside memory a store of a list of bytes answers the state with those bytes stored from `mem[I]` on. -/
theorem complete_storeAtIndex_ok (p : RangePolicy) (i : Instr) {bs : List Byte} {s : State}
    (h : s.i.toNat + bs.length ≤ memSize) :
    ∃ m, complete i s (storeAtIndex p bs s) = .next (s.setMem m) ∧ StoredAtIndex s bs m := by
  obtain ⟨m, hok, hm⟩ := storeBytes_in_range p bs s.i.toNat s.mem h
  refine ⟨m, complete_ok (by simp only [storeAtIndex, hok]), fun j hj => ?_, fun a ha => ?_, fun hwf =>
    wf_storeBytes bs hwf hok⟩
  · rw [hm, if_pos (by omega), Nat.add_sub_cancel_left]
  · rw [hm, if_neg]
    rintro ⟨hle, hlt⟩
    exact ha (a - s.i.toNat) (by omega) (by omega)

theorem exec_ldB_ok (x : Nibble) {s : State} (h : s.i.toNat + 3 ≤ memSize) :
    ∃ m, exec (.ldB x) s = .next (s.setMem m) ∧ StoredAtIndex s (decimalDigits (s.reg x)) m :=
  complete_storeAtIndex_ok _ _ h

theorem exec_storeRegs_ok {x : Nibble} {s : State} (h : s.i.toNat + (x.toNat + 1) ≤ memSize) :
    ∃ m, exec (.storeRegs x) s = .next (s.setMem m) ∧ StoredAtIndex s (s.firstRegs (x.toNat + 1)) m :=
  complete_storeAtIndex_ok _ _ (by rwa [length_firstRegs_succ])

theorem exec_loadRegs_ok {x : Nibble} {s : State} (h : s.i.toNat + (x.toNat + 1) ≤ memSize) :
    ∃ t, exec (.loadRegs x) s = .next t ∧ t = { s with v := t.v } ∧ ∀ r : Nibble, t.reg r =
      if r.toNat < x.toNat + 1 then s.mem.read (s.i.toNat + r.toNat) else s.reg r := by
  obtain ⟨t, hok, ht, hreg⟩ := loadFromIndex_ok .fault (x.toNat + 1) s h (nibble_lt x)
  exact ⟨t, complete_ok hok, ht, hreg⟩

theorem exec_drw_ok (x y : Nibble) {n : Nibble} {s : State} (h : n = 0 ∨ s.i.toNat + n.toNat ≤ memSize) :
    ∃ fb hit, exec (.drw x y n) s = .next ((s.setReg vf (flagByte hit)).setFb fb) ∧
      (∀ px py, fb.pixel px py = (s.fb.pixel px py ^^ spriteCovers s x y n px py)) ∧
      (hit = true ↔ ∃ px py, spriteCovers s x y n px py = true ∧ s.fb.pixel px py = true) := by
  obtain ⟨fb, hit, hok, hfb, hhit⟩ := drawSprite_ok x y n s h
  exact ⟨fb, hit, complete_ok hok, hfb, hhit⟩

/-! ### The frames of the longer rules -/

theorem OnlyChanges.pop (s : State) (w : Word) (b : Byte) :
    OnlyChanges (fun p => p = .pc ∨ p = .sp) s { s with pc := w, sp := b } := by
  simp [OnlyChanges, State.reg]

theorem OnlyChanges.push (s : State) (w : Word) (b : Byte) (k : Fin 16) (r : Word) :
    OnlyChanges (fun p => p = .pc ∨ p = .sp ∨ p = .stackSlot k) s
      { s with sp := b, stack := s.stack.set k r, pc := w } := by
  have hset : ∀ j : Fin 16, j ≠ k → (s.stack.set k r)[j] = s.stack[j] := fun j hj =>
    (stack_set s.stack k j r).trans (if_neg hj)
  simpa +contextual [OnlyChanges, State.reg] using hset

theorem OnlyChanges.draw {s : State} {x y n : Nibble} {fb : Framebuffer}
    (h : ∀ px py, fb.pixel px py = (s.fb.pixel px py ^^ spriteCovers s x y n px py)) (b : Byte) :
    OnlyChanges (fun p => p = .reg vf ∨ ∃ px py, spriteCovers s x y n px py = true ∧ p = .pixel px py) s
      ((s.setReg vf b).setFb fb) := by
  refine ((OnlyChanges.setReg s vf b).mono fun p hp => .inl hp).trans (.setFb _ _ _ fun px py hp => ?_)
  have hc : spriteCovers s x y n px py = false := by
    simpa using fun hc => hp (.inr ⟨px, py, hc, rfl⟩)
  rw [h, hc, Bool.xor_false, State.setReg_fb]

/-- A store from `mem[I]` on assigns the bytes that it stores. -/
theorem OnlyChanges.store {s : State} {bs : List Byte} {m : Memory} (h : StoredAtIndex s bs m) :
    OnlyChanges (fun p => ∃ k < bs.length, p = .byte (s.i.toNat + k)) s (s.setMem m) :=
  .setMem _ s m fun a ha => h.elsewhere a fun k hk hak => ha ⟨k, hk, congrArg Part.byte hak⟩

theorem OnlyChanges.storeRegs {s : State} {x : Nibble} {m : Memory}
    (h : StoredAtIndex s (s.firstRegs (x.toNat + 1)) m) :
    OnlyChanges (fun p => ∃ k ≤ x.toNat, p = .byte (s.i.toNat + k)) s (s.setMem m) := by
  refine (OnlyChanges.store h).mono fun p ⟨k, hk, hp⟩ => ⟨k, ?_, hp⟩
  rw [length_firstRegs_succ] at hk
  exact Nat.le_of_lt_succ hk

/-- LD Vx, K changes at most its register, pc and wk (44_keypad_timers.md R184). -/
theorem OnlyChanges.waitForKey (x : Nibble) (s : State) :
    OnlyChanges (fun p => p = .reg x ∨ p = .pc ∨ p = .wk) s (waitForKey x s) := by
  have hpc : OnlyChanges (fun p => p = .reg x ∨ p = .pc ∨ p = .wk) s s.rewind :=
    (OnlyChanges.rewind s).mono fun p hp => .inr (.inl hp)
  obtain ⟨-, -, h⟩ | ⟨k, -, -, h⟩ | ⟨k, -, -, h⟩ | ⟨k, -, -, h⟩ := waitForKey_cases x s <;> rw [h]
  · exact hpc
  · exact hpc.trans ((OnlyChanges.setWk _ _).mono fun p hp => .inr (.inr hp))
  · exact hpc
  · exact ((OnlyChanges.setReg s x _).mono fun p hp => .inl hp).trans
      ((OnlyChanges.setWk _ _).mono fun p hp => .inr (.inr hp))

theorem waitForKey_mem (x : Nibble) (s : State) : (waitForKey x s).mem = s.mem := by
  obtain ⟨-, -, h⟩ | ⟨k, -, -, h⟩ | ⟨k, -, -, h⟩ | ⟨k, -, -, h⟩ := waitForKey_cases x s <;> rw [h] <;> rfl

/-! ### The inversion of the execute phase -/

/-- An execute phase that raises nothing changes only what the instruction's rule assigns, and leaves memory in
canonical form. -/
theorem exec_frame {i : Instr} {s t : State} (h : exec i s = .next t) (hr : ∀ e, ¬ Raises s i e) :
    OnlyChanges (assigns s i) s t ∧ (s.mem.wf → t.mem.wf) := by
  have hmem : 0 < accessLength i → s.i.toNat + accessLength i ≤ memSize := fun hpos =>
    Nat.le_of_not_lt fun hlt => hr _ (.memRange i hpos hlt)
  cases i with
  | cls ign => cases h; exact ⟨.setFb_anyPixel s _, id⟩
  | ret ign =>
    rw [exec_ret_ok ign fun h0 => hr _ (.underflow ign h0)] at h
    cases h
    exact ⟨.pop s _ _, id⟩
  | call nnn =>
    rw [exec_call_ok nnn (Nat.lt_of_not_le fun hle => hr _ (.overflow nnn hle))] at h
    cases h
    exact ⟨.push s _ _ _ _, id⟩
  | jp nnn | jpV0 nnn => cases h; exact ⟨.jump s _, id⟩
  | seImm x kk | sneImm x kk | seReg x y ign | sneReg x y ign => cases h; exact ⟨.skipIf s _, by simp⟩
  | ldImm x kk | addImm x kk | ldReg x y | orReg x y | andReg x y | xorReg x y | ldVxDT x =>
    cases h
    exact ⟨.setReg s x _, id⟩
  | addReg x y | sub x y | shr x y | subn x y | shl x y => cases h; exact ⟨.setFlagThenReg s _ x _, id⟩
  | ldI nnn | addI x | ldF x => cases h; exact ⟨.setIndex s _, id⟩
  | rnd x kk =>
    cases h
    exact ⟨((OnlyChanges.drawn s).mono fun p hp => .inr hp).trans
      ((OnlyChanges.setReg s.drawn x _).mono fun p hp => .inl hp), id⟩
  | drw x y n =>
    have hn : n = 0 ∨ s.i.toNat + n.toNat ≤ memSize := by
      rcases Nat.eq_zero_or_pos n.toNat with h0 | hpos
      · exact .inl (BitVec.eq_of_toNat_eq h0)
      · exact .inr (hmem hpos)
    obtain ⟨fb, hit, hok, hfb, -⟩ := exec_drw_ok x y hn
    rw [hok] at h
    cases h
    exact ⟨.draw hfb _, id⟩
  | skp x ign =>
    rw [exec_skp_ok ign (Nat.lt_of_not_le fun hle => hr _ (.skp x ign hle))] at h
    cases h
    exact ⟨.skipIf s _, by simp⟩
  | sknp x ign =>
    rw [exec_sknp_ok ign (Nat.lt_of_not_le fun hle => hr _ (.sknp x ign hle))] at h
    cases h
    exact ⟨.skipIf s _, by simp⟩
  | ldVxK x => cases h; exact ⟨.waitForKey x s, by rw [waitForKey_mem]; exact id⟩
  | ldDTVx x => cases h; exact ⟨.setDt s _, id⟩
  | ldSTVx x => cases h; exact ⟨.setSt s _, id⟩
  | ldB x =>
    obtain ⟨m, hok, hm⟩ := exec_ldB_ok x (hmem (Nat.succ_pos _))
    rw [hok] at h
    cases h
    exact ⟨.store hm, hm.wf⟩
  | storeRegs x =>
    obtain ⟨m, hok, hm⟩ := exec_storeRegs_ok (hmem (Nat.succ_pos _))
    rw [hok] at h
    cases h
    exact ⟨.storeRegs hm, hm.wf⟩
  | loadRegs x =>
    obtain ⟨u, hok, hu, hreg⟩ := exec_loadRegs_ok (hmem (Nat.succ_pos _))
    rw [hok] at h
    cases h
    refine ⟨.setV _ hu fun r hr => ?_, by rw [hu]; exact id⟩
    rw [hreg, if_neg fun hlt => hr ⟨r, Nat.le_of_lt_succ hlt, rfl⟩]
  | noop0 arg | noop8 arg | noopE arg | noopF arg => cases h; exact ⟨.refl _ s, id⟩

/-- INVERSION: an execute phase changes only what its instruction's rule assigns, keeping memory canonical, or
takes the fault it raises. -/
theorem exec_cases {i : Instr} {s t : State} (h : exec i s = .next t) :
    (OnlyChanges (assigns s i) s t ∧ (s.mem.wf → t.mem.wf)) ∨ ∃ e, Raises s i e ∧ t = s.raiseIn i e := by
  by_cases hr : ∃ e, Raises s i e
  · obtain ⟨e, he⟩ := hr
    rw [exec_of_raises he] at h
    cases h
    exact .inr ⟨e, he, rfl⟩
  · exact .inl (exec_frame h (not_exists.mp hr))

/-- Every execute phase answers a next state (40_cycle_dispatch.md section 3). -/
theorem exec_next (i : Instr) (s : State) : ∃ t, exec i s = .next t := by
  cases i with
  | ret ign => exact complete_next _ _ _
  | call nnn => exact complete_next _ _ _
  | drw x y n => exact complete_next _ _ _
  | skp x ign | sknp x ign => exact complete_next _ _ _
  | ldB x | storeRegs x | loadRegs x => exact complete_next _ _ _
  | _ => exact ⟨_, rfl⟩

/-! ### The inversion of the cycle -/

/-- What a rule assigns does not depend on pc. -/
theorem assigns_advance (s : State) (i : Instr) : assigns s.advance i = assigns s i := by
  cases i <;> rfl

/-- A raise in the execute phase of a cycle is taken in the state of the cycle's start (60_exceptions.md R221). -/
theorem raiseIn_advance (s : State) (e : Raise) :
    s.advance.raiseIn (decodeWord s.wordAt) e = s.takeFault s.wordAt e := by
  rw [State.raiseIn, State.advance_rewind, (standsFor_decodeWord s.wordAt).2]

theorem not_assigns_faultReg (s : State) (i : Instr) : ¬ assigns s i .faultReg := by
  cases i <;> simp [assigns]

/-- INVERSION: a cycle faults in the fetch, faults in the execute phase, or completes its instruction's rule and
ticks. -/
theorem step_inversion {s t : State} (h : step s = .next t) :
    (¬ s.fetchable ∧ t = s.takeFault 0 ⟨.fetchRange, s.pc⟩) ∨
    (s.fetchable ∧ ∃ e, Raises s (decodeWord s.wordAt) e ∧ t = s.takeFault s.wordAt e) ∨
    (s.fetchable ∧ ∃ u, exec (decodeWord s.wordAt) s.advance = .next u ∧
      OnlyChanges (assigns s (decodeWord s.wordAt)) s.advance u ∧ (s.mem.wf → u.mem.wf) ∧ t = tick u) := by
  obtain ⟨hn, ⟨hf, rfl⟩ | ⟨hf, u, hu, ht⟩⟩ := step_cases h
  · exact .inl ⟨hf, rfl⟩
  · obtain ⟨hframe, hwf⟩ | ⟨e, he, rfl⟩ := exec_cases hu
    · rw [assigns_advance] at hframe
      have hun : u.normalEnd := by
        rw [State.normalEnd, hframe.faultReg_eq (not_assigns_faultReg s _)]
        exact hn
      exact .inr (.inr ⟨hf, u, hu, hframe, hwf, by rw [ht, if_pos hun]⟩)
    · have hhalted : ¬ (s.advance.raiseIn (decodeWord s.wordAt) e).normalEnd := he.cause_ne_noFault
      rw [if_neg hhalted, raiseIn_advance] at ht
      exact .inr (.inl ⟨hf, e, he.congr rfl (fun _ => rfl) rfl, ht⟩)

end Sys2Proof.Machine
end

section
/-! PROOFS. The cycle and its faults (40_cycle_dispatch.md, 60_exceptions.md section 1): what a cycle runs, when it
faults and with which record, and the halted block. -/

namespace Sys2Proof.Machine

/-! ### The obligations -/

/-- Settles O6: the word decodes to the instruction, and the end of the cycle is the tick unless a fault was taken. -/
theorem stepRunsDecodedInstruction : Obligations.StepRunsDecodedInstruction := by
  intro i s hwf hn hf hw
  rw [step_of_wordAt (decodeWord_encode hwf) hn hf hw]
  cases exec i s.advance <;> rfl

/-- Settles O7: the fetch raises FetchRange, which is taken in the state of the cycle's start. -/
theorem fetchRangeFaults : Obligations.FetchRangeFaults := fun _ => step_of_not_fetchable

/-- Settles O8: a halted block is the first branch of the cycle, and a transaction that answers a fault keeps the
state. -/
theorem haltedBlockStaysHalted : Obligations.HaltedBlockStaysHalted := by
  intro s h
  refine ⟨step_of_halted h, fun r => ?_⟩
  have hstep : step { s with randIn := some r } = .fault (.halted s.faultReg.cause) := step_of_halted h
  simp only [afterTransact, transact, hostStep, hstep]

/-- Settles O11: no arm of the execute phase answers a fault or a refusal, and the fetch fault is a next state. -/
theorem everyCycleCompletes : Obligations.EveryCycleCompletes := by
  refine ⟨exec_next, fun s hn => ?_⟩
  by_cases hf : s.fetchable
  · obtain ⟨u, hu⟩ := exec_next (decodeWord s.wordAt) s.advance
    exact ⟨_, by rw [step_of_fetchable hn hf, hu]; rfl⟩
  · exact ⟨_, step_of_not_fetchable hn hf⟩

/-- Settles O12: the two ways a cycle faults both take the fault in the state of its start; a completed rule leaves
FAULT clear. -/
theorem faultsArePrecise : Obligations.FaultsArePrecise := by
  intro s t h ht
  obtain ⟨hf, rfl⟩ | ⟨hf, e, he, rfl⟩ | ⟨hf, u, -, hframe, -, rfl⟩ := step_inversion h
  · exact ⟨.fetchRange, s.pc, Cause.noConfusion, by rw [if_neg hf]; rfl⟩
  · exact ⟨e.cause, e.info, he.cause_ne_noFault, by rw [if_pos hf]; rfl⟩
  · have hu : u.faultReg = s.faultReg := hframe.faultReg_eq (not_assigns_faultReg s _)
    rw [State.halted, tick_faultReg, hu] at ht
    exact absurd (step_cases h).1 ht

/-- Settles O13: the raise that is taken determines the cause, the instruction and the info. -/
theorem faultCausesAndInfo : Obligations.FaultCausesAndInfo := by
  intro s t h
  obtain ⟨hf, rfl⟩ | ⟨hf, e, he, rfl⟩ | ⟨hf, u, -, hframe, -, rfl⟩ := step_inversion h
  · exact ⟨hf, rfl⟩
  · generalize decodeWord s.wordAt = i at he
    cases he with
    | underflow ign hr => exact ⟨hf, ⟨ign, rfl⟩, hr, rfl⟩
    | overflow nnn hr => exact ⟨hf, ⟨nnn, rfl⟩, Nat.succ_le_succ hr, rfl⟩
    | skp x ign hr => exact ⟨hf, x, ign, .inl rfl, hr, rfl⟩
    | sknp x ign hr => exact ⟨hf, x, ign, .inr rfl, hr, rfl⟩
    | memRange _ hpos hr =>
      refine ⟨hf, max s.i.toNat memSize - s.i.toNat, by omega, by omega, fun j hj => by omega, ?_⟩
      rw [Nat.add_sub_cancel' (Nat.le_max_left _ _)]
      rfl
  · have hcause : (tick u).faultReg.cause = .noFault := by
      rw [tick_faultReg, hframe.faultReg_eq (not_assigns_faultReg s _)]
      exact (step_cases h).1
    rw [hcause]
    exact hf

/-- Settles O14: both are raises of the execute phase. -/
theorem stackFaultsAreTaken : Obligations.StackFaultsAreTaken :=
  fun _ => ⟨fun nnn h => exec_of_raises (.overflow nnn h), fun ign h => exec_of_raises (.underflow ign h)⟩

/-- Settles O15: both are raises of the execute phase. -/
theorem keyRangeFaultIsTaken : Obligations.KeyRangeFaultIsTaken := by
  rintro s x ign i h (rfl | rfl)
  · exact exec_of_raises (.skp x ign h)
  · exact exec_of_raises (.sknp x ign h)

/-- Settles O16: the access past the end of memory is a raise of the execute phase. -/
theorem memRangeFaultIsTaken : Obligations.MemRangeFaultIsTaken :=
  fun _ i hpos h => exec_of_raises (.memRange i hpos h)

/-- Settles O5: the execute phases of CLS, SE and SNE do not mention the ignored bits; RET, SKP and SKNP pass them on
only to the fault that they do not raise here. -/
theorem ignoredBitsHaveNoEffect : Obligations.IgnoredBitsHaveNoEffect := by
  intro s x y
  refine ⟨fun a b => ⟨rfl, fun h => ?_⟩, fun a b => ⟨rfl, rfl, fun h => ⟨?_, ?_⟩⟩⟩
  · rw [exec_ret_ok a h, exec_ret_ok b h]
  · rw [exec_skp_ok a h, exec_skp_ok b h]
  · rw [exec_sknp_ok a h, exec_sknp_ok b h]

end Sys2Proof.Machine
end

section
/-! PROOFS. Frames and the invariant (00_scope.md section 5, 10_state.md): which instructions write each part of the
state, and what every step and every host transaction keeps. -/

namespace Sys2Proof.Machine

/-! ### Which instructions assign each part -/

theorem instr_of_assigns_pixel {s : State} {i : Instr} {x : Fin 64} {y : Fin 32} (h : assigns s i (.pixel x y)) :
    (∃ ign, i = .cls ign) ∨ ∃ x y n, i = .drw x y n := by
  cases i with
  | cls ign => exact .inl ⟨ign, rfl⟩
  | drw x y n => exact .inr ⟨x, y, n, rfl⟩
  | _ => simp [assigns] at h

theorem instr_of_assigns_byte {s : State} {i : Instr} {a : Nat} (h : assigns s i (.byte a)) :
    ∃ x, i = .ldB x ∨ i = .storeRegs x := by
  cases i with
  | ldB x => exact ⟨x, .inl rfl⟩
  | storeRegs x => exact ⟨x, .inr rfl⟩
  | _ => simp [assigns] at h

theorem instr_of_assigns_index {s : State} {i : Instr} (h : assigns s i .index) :
    (∃ nnn, i = .ldI nnn) ∨ ∃ x, i = .addI x ∨ i = .ldF x := by
  cases i with
  | ldI nnn => exact .inl ⟨nnn, rfl⟩
  | addI x => exact .inr ⟨x, .inl rfl⟩
  | ldF x => exact .inr ⟨x, .inr rfl⟩
  | _ => simp [assigns] at h

theorem instr_of_assigns_stackSlot {s : State} {i : Instr} {k : Fin 16} (h : assigns s i (.stackSlot k)) :
    (∃ nnn, i = .call nnn) ∧ k = slot (s.sp + 1) := by
  cases i with
  | call nnn => exact ⟨⟨nnn, rfl⟩, by simpa [assigns] using h⟩
  | _ => simp [assigns] at h

theorem instr_of_assigns_sp {s : State} {i : Instr} (h : assigns s i .sp) :
    (∃ nnn, i = .call nnn) ∨ ∃ ign, i = .ret ign := by
  cases i with
  | call nnn => exact .inl ⟨nnn, rfl⟩
  | ret ign => exact .inr ⟨ign, rfl⟩
  | _ => simp [assigns] at h

theorem instr_of_assigns_wk {s : State} {i : Instr} (h : assigns s i .wk) : ∃ x, i = .ldVxK x := by
  cases i with
  | ldVxK x => exact ⟨x, rfl⟩
  | _ => simp [assigns] at h

theorem not_assigns_key (s : State) (i : Instr) (k : Fin 16) : ¬ assigns s i (.key k) := by
  cases i <;> simp [assigns]

/-- VF is a flag, or it is named as a destination (10_state.md R21). -/
theorem writesFlag_or_hasDestination_of_assigns_vf {s : State} {i : Instr} (h : assigns s i (.reg vf)) :
    writesFlag i = true ∨ hasDestination vf i = true := by
  cases i with
  | addReg x y | sub x y | shr x y | subn x y | shl x y | drw x y n => exact .inl rfl
  | ldImm x kk | addImm x kk | rnd x kk | ldReg x y | orReg x y | andReg x y | xorReg x y | ldVxDT x | ldVxK x =>
    obtain rfl : vf = x := by simpa [assigns] using h
    exact .inr (beq_self_eq_true vf)
  | loadRegs x => exact .inr (by simpa [assigns, hasDestination] using h)
  | _ => simp [assigns] at h

/-! ### The frame of a cycle -/

/-- What a cycle that runs `i` may assign: what the rule of `i` does, pc, the timers and FAULT. -/
def cycleAssigns (s : State) (i : Instr) (p : Part) : Prop :=
  assigns s i p ∨ p = .pc ∨ p = .dt ∨ p = .st ∨ p = .faultReg

theorem OnlyChanges.takeFault (s : State) (w : Word) (e : Raise) : OnlyChanges (· = .faultReg) s (s.takeFault w e) := by
  simp [OnlyChanges]

theorem OnlyChanges.tick (s : State) : OnlyChanges (fun p => p = .dt ∨ p = .st) s (tick s) := by
  simp [OnlyChanges]

theorem step_frame {s t : State} (h : step s = .next t) :
    OnlyChanges (cycleAssigns s (decodeWord s.wordAt)) s t := by
  have htake (w : Word) (e : Raise) : OnlyChanges (cycleAssigns s (decodeWord s.wordAt)) s (s.takeFault w e) :=
    (OnlyChanges.takeFault s w e).mono fun p hp => by simp [cycleAssigns, hp]
  obtain ⟨-, rfl⟩ | ⟨-, e, -, rfl⟩ | ⟨-, u, -, hframe, -, rfl⟩ := step_inversion h
  · exact htake _ _
  · exact htake _ _
  · have hadvance := (OnlyChanges.advance s).mono (q := cycleAssigns s (decodeWord s.wordAt)) fun p hp => by
      simp [cycleAssigns, hp]
    have hrule := hframe.mono (q := cycleAssigns s (decodeWord s.wordAt)) fun p hp => .inl hp
    have htick := (OnlyChanges.tick u).mono (q := cycleAssigns s (decodeWord s.wordAt)) fun p hp => by
      rcases hp with rfl | rfl <;> simp [cycleAssigns]
    exact (hadvance.trans hrule).trans htick

/-! ### The invariant -/

/-- The invariant rests on memory, the stack, sp, pc and FAULT alone. -/
theorem State.Inv.congr {s t : State} (h : s.Inv) (hmem : t.mem.wf) (hsp : t.sp = s.sp) (hstack : t.stack = s.stack)
    (hpc : t.pc = s.pc) (hfault : t.faultReg = s.faultReg) : t.Inv := by
  obtain ⟨-, hs⟩ := h
  rw [State.Inv, hsp, hstack, State.normalEnd, State.halted, hpc, hfault]
  exact ⟨hmem, hs⟩

/-- Taking a fault keeps the invariant, unless its cause is the one that does not occur under `clip`. -/
theorem State.Inv.takeFault {s : State} (h : s.Inv) (w : Word) {e : Raise} (hne : e.cause ≠ .noFault)
    (hpix : e.cause ≠ .pixelRange) : (s.takeFault w e).Inv := by
  obtain ⟨hmem, hsp, hstack, -⟩ := h
  exact ⟨hmem, hsp, hstack, hpix, fun hn => absurd hn hne, fun _ => rfl⟩

/-- An execute phase keeps sp in 0 to 15: CALL stops at 15 and RET at 0. -/
theorem exec_sp_le {i : Instr} {s t : State} (h : exec i s = .next t) (hframe : OnlyChanges (assigns s i) s t)
    (hsp : s.sp.toNat ≤ 15) : t.sp.toNat ≤ 15 := by
  by_cases ha : assigns s i .sp
  · obtain ⟨nnn, rfl⟩ | ⟨ign, rfl⟩ := instr_of_assigns_sp ha
    · by_cases hlt : s.sp.toNat < 15
      · rw [exec_call_ok nnn hlt] at h
        cases h
        show (s.sp + 1).toNat ≤ 15
        bv_omega
      · rw [exec_of_raises (.overflow nnn (Nat.le_of_not_lt hlt))] at h
        cases h
        exact hsp
    · by_cases h0 : s.sp = 0
      · rw [exec_of_raises (.underflow ign h0)] at h
        cases h
        exact hsp
      · rw [exec_ret_ok ign h0] at h
        cases h
        show (s.sp - 1).toNat ≤ 15
        bv_omega
  · rw [hframe.sp_eq ha]
    exact hsp

/-- CALL never pushes to slot 0 below sp 15 (10_state.md R26), and above it pushes nothing. -/
theorem exec_stack_zero {i : Instr} {s t : State} (h : exec i s = .next t)
    (hframe : OnlyChanges (assigns s i) s t) : t.stack[0] = s.stack[0] := by
  by_cases ha : assigns s i (.stackSlot 0)
  · obtain ⟨⟨nnn, rfl⟩, hslot⟩ := instr_of_assigns_stackSlot ha
    by_cases hlt : s.sp.toNat < 15
    · have : (slot (s.sp + 1)).val = s.sp.toNat + 1 := by
        show (s.sp + 1).toNat % 16 = s.sp.toNat + 1
        bv_omega
      rw [← hslot] at this
      cases this
    · rw [exec_of_raises (.overflow nnn (Nat.le_of_not_lt hlt))] at h
      cases h
      rfl
  · exact hframe.stackSlot_eq 0 ha

/-- Every step keeps the invariant. -/
theorem State.Inv.step {s t : State} (hs : s.Inv) (h : step s = .next t) : t.Inv := by
  obtain ⟨-, rfl⟩ | ⟨-, e, he, rfl⟩ | ⟨-, u, hu, hframe, hwf, rfl⟩ := step_inversion h
  · exact hs.takeFault 0 Cause.noConfusion Cause.noConfusion
  · exact hs.takeFault _ he.cause_ne_noFault he.cause_ne_pixelRange
  · obtain ⟨hmem, hsp, hstack, hpix, hclear, -⟩ := hs
    have hn : s.normalEnd := (step_cases h).1
    have hfault : u.faultReg = s.faultReg := hframe.faultReg_eq (not_assigns_faultReg s _)
    rw [← assigns_advance] at hframe
    have husp : u.sp.toNat ≤ 15 := exec_sp_le hu hframe hsp
    have hustack : u.stack[0] = 0 := (exec_stack_zero hu hframe).trans hstack
    refine ⟨hwf hmem, husp, hustack, ?_, fun _ => ?_, fun hh => ?_⟩
    · rw [tick_faultReg, hfault]
      exact hpix
    · rw [tick_faultReg, hfault]
      exact hclear hn
    · rw [State.halted, tick_faultReg, hfault] at hh
      exact absurd hn hh

/-- The reset state meets the invariant. -/
theorem State.Inv.reset : State.reset.Inv :=
  ⟨Memory.wf_nil, Nat.zero_le _, rfl, Cause.noConfusion, fun _ => rfl, fun h => absurd rfl h⟩

/-! ### The host's transactions -/

/-- An image that Load accepts ends inside memory (20_memory.md R64). -/
theorem imageBase_add_le {n : Nat} (h : n ≤ maxImage) : imageBase + n ≤ memSize := by
  simp only [imageBase, maxImage, memSize] at *
  omega

theorem transact_load {image : List Byte} {s : State} (h : image.length ≤ maxImage) :
    transact (.load image) s = .next (s.setMem (writeImage imageBase image s.mem)) := by
  simp only [transact, loadImage, if_pos h]

theorem afterTransact_load {image : List Byte} {s : State} (h : image.length ≤ maxImage) :
    afterTransact (.load image) s = s.setMem (writeImage imageBase image s.mem) := by
  simp only [afterTransact, transact_load h]

theorem transact_load_refused {image : List Byte} {s : State} (h : ¬ image.length ≤ maxImage) :
    transact (.load image) s = .refused (.imageTooLong image.length) := by
  simp only [transact, loadImage, if_neg h]

theorem afterTransact_load_refused {image : List Byte} {s : State} (h : ¬ image.length ≤ maxImage) :
    afterTransact (.load image) s = s := by
  simp only [afterTransact, transact_load_refused h]

theorem afterTransact_step {r : Byte} {s t : State} (h : step { s with randIn := some r } = .next t) :
    afterTransact (.step r) s = { t with randIn := none } := by
  simp only [afterTransact, transact, hostStep_next h]

/-! ### The obligations -/

/-- Settles O20: the inversion of the execute phase, with the frame of the fault it takes. -/
theorem execChangesOnlyItsParts : Obligations.ExecChangesOnlyItsParts := by
  intro i s t h
  obtain ⟨hframe, -⟩ | ⟨e, he, rfl⟩ := exec_cases h
  · exact .inl hframe
  · exact .inr ⟨.raiseIn s i e, he.cause_ne_noFault, rfl⟩

/-- Settles O21: a part that a cycle changed is one that the rule of its instruction assigns, as it is none of those
that every cycle may write. -/
theorem onlyNamedInstructionsWrite : Obligations.OnlyNamedInstructionsWrite := by
  intro s t h
  have hframe := step_frame h
  have hrule {p : Part} (hp : p ≠ .pc ∧ p ≠ .dt ∧ p ≠ .st ∧ p ≠ .faultReg)
      (hc : cycleAssigns s (decodeWord s.wordAt) p) : assigns s (decodeWord s.wordAt) p := by
    simpa [cycleAssigns, hp] using hc
  refine ⟨not_imp_comm.mp fun hno => hframe.fb_eq fun x y hc => hno (instr_of_assigns_pixel (hrule (by simp) hc)),
    ?_,
    not_imp_comm.mp fun hno => hframe.index_eq fun hc => hno (instr_of_assigns_index (hrule (by simp) hc)),
    not_imp_comm.mp fun hno => hframe.stack_eq fun k hc => hno (instr_of_assigns_stackSlot (hrule (by simp) hc)).1,
    not_imp_comm.mp fun hno => hframe.sp_eq fun hc => hno (instr_of_assigns_sp (hrule (by simp) hc)),
    not_imp_comm.mp fun hno => hframe.wk_eq fun hc => hno (instr_of_assigns_wk (hrule (by simp) hc)),
    hframe.keys_eq fun k hc => not_assigns_key s _ k (hrule (by simp) hc),
    not_imp_comm.mp fun hno => hframe.reg_eq vf fun hc =>
      hno (writesFlag_or_hasDestination_of_assigns_vf (hrule (by simp) hc))⟩
  rintro ⟨a, hne⟩
  by_contra hno
  exact hne (hframe.read_eq a fun hc => hno (instr_of_assigns_byte (hrule (by simp) hc)))

/-- Settles O17: a cycle takes a fault in the state of its start, or completes a rule that keeps memory canonical, sp in
range, stack[0] and FAULT. -/
theorem stepKeepsInvariant : Obligations.StepKeepsInvariant := fun _ _ => State.Inv.step

/-- Settles O18: each clause is read off the reset values. -/
theorem resetMeetsInvariant : Obligations.ResetMeetsInvariant := State.Inv.reset

/-- Settles O19: Reset gives the reset state again, Load writes inside memory or is refused, SetKeys writes keys alone,
and Step is one step or, on a halted block, nothing. -/
theorem transactionsKeepInvariant : Obligations.TransactionsKeepInvariant := by
  intro x s hs
  cases x with
  | reset => exact State.Inv.reset.congr Memory.wf_nil rfl rfl rfl rfl
  | load image =>
    by_cases hl : image.length ≤ maxImage
    · rw [afterTransact_load hl]
      exact hs.congr (wf_writeImage image hs.1 (imageBase_add_le hl)) rfl rfl rfl rfl
    · rw [afterTransact_load_refused hl]
      exact hs
  | setKeys keys => exact hs.congr hs.1 rfl rfl rfl rfl
  | step r =>
    by_cases hh : s.halted
    · rw [(haltedBlockStaysHalted s hh).2 r]
      exact hs
    · obtain ⟨t, ht⟩ := everyCycleCompletes.2 { s with randIn := some r } (not_not.mp hh)
      have hst : ({ s with randIn := some r } : State).Inv := hs
      have hinv : t.Inv := hst.step ht
      rw [afterTransact_step ht]
      exact hinv

end Sys2Proof.Machine
end

section
/-! PROOFS. No instruction reads ST or FAULT (10_state.md sections 3 and 7): the execute phase does the same whatever those
two parts hold. -/

namespace Sys2Proof.Machine

/-- The state with other values in the two parts that no instruction reads. -/
def State.withUnread (s : State) (b : Byte) (f : FaultReg) : State := { s with st := b, faultReg := f }

/-- Putting back what a run left in the two parts gives that run's state. -/
def AgreesUnread (u t : State) : Prop := u.withUnread t.st t.faultReg = t

section
variable (s : State) (b : Byte) (f : FaultReg)

@[simp] theorem State.withUnread_i : (s.withUnread b f).i = s.i := rfl
@[simp] theorem State.withUnread_mem : (s.withUnread b f).mem = s.mem := rfl
@[simp] theorem State.withUnread_fb : (s.withUnread b f).fb = s.fb := rfl
@[simp] theorem State.withUnread_wk : (s.withUnread b f).wk = s.wk := rfl
@[simp] theorem State.withUnread_keys : (s.withUnread b f).keys = s.keys := rfl
@[simp] theorem State.reg_withUnread (r : Nibble) : (s.withUnread b f).reg r = s.reg r := rfl

theorem skipIf_withUnread (c : Bool) : (s.withUnread b f).skipIf c = (s.skipIf c).withUnread b f := by
  cases c <;> rfl

theorem popPc_withUnread : popPc .fault (s.withUnread b f) = (popPc .fault s).map (·.withUnread b f) := by
  by_cases h : s.sp = 0
  · rw [popPc_empty s h]
    exact popPc_empty _ h
  · rw [popPc_ok s h]
    exact popPc_ok _ h

theorem pushPc_withUnread (w : Word) :
    pushPc .fault w (s.withUnread b f) = (pushPc .fault w s).map (·.withUnread b f) := by
  by_cases h : s.sp.toNat < 15
  · rw [pushPc_ok w s h]
    exact pushPc_ok w _ h
  · rw [pushPc_full w s (Nat.le_of_not_lt h)]
    exact pushPc_full w _ (Nat.le_of_not_lt h)

theorem skipOnKey_withUnread (x : Nibble) (want : Bool) :
    skipOnKey .fault x want (s.withUnread b f) = (skipOnKey .fault x want s).map (·.withUnread b f) := by
  by_cases h : (s.reg x).toNat < 16
  · rw [skipOnKey_ok .fault want h, skipOnKey_ok (s := s.withUnread b f) .fault want h, skipIf_withUnread]
    rfl
  · rw [skipOnKey_out_of_range want (Nat.le_of_not_lt h)]
    exact skipOnKey_out_of_range want (Nat.le_of_not_lt h)

theorem storeAtIndex_withUnread (p : RangePolicy) (bs : List Byte) :
    storeAtIndex p bs (s.withUnread b f) = (storeAtIndex p bs s).map (·.withUnread b f) := by
  simp only [storeAtIndex, State.withUnread_i, State.withUnread_mem]
  cases storeBytes p s.i.toNat bs s.mem <;> rfl

theorem setRegs_withUnread (bs : List Byte) : ∀ (k : Nat) (s : State),
    setRegs k bs (s.withUnread b f) = (setRegs k bs s).withUnread b f := by
  induction bs with
  | nil => intro k s; rfl
  | cons c bs ih => intro k s; exact ih (k + 1) (s.setReg _ c)

theorem loadFromIndex_withUnread (p : RangePolicy) (n : Nat) :
    loadFromIndex p n (s.withUnread b f) = (loadFromIndex p n s).map (·.withUnread b f) := by
  simp only [loadFromIndex, State.withUnread_i, State.withUnread_mem, setRegs_withUnread]
  cases loadBytes p s.mem s.i.toNat n <;> rfl

theorem drawSprite_withUnread (cfg : Config) (x y n : Nibble) :
    drawSprite cfg x y n (s.withUnread b f) = (drawSprite cfg x y n s).map (·.withUnread b f) := by
  simp only [drawSprite, State.withUnread_i, State.withUnread_mem, State.withUnread_fb, State.reg_withUnread]
  split <;> rfl

theorem waitForKey_withUnread (x : Nibble) : waitForKey x (s.withUnread b f) = (waitForKey x s).withUnread b f := by
  simp only [waitForKey, State.withUnread_wk, State.withUnread_keys]
  cases s.wk with
  | idle => cases lowestKey s.keys <;> rfl
  | keyLatched k => cases h : s.keys[k] <;> simp only [h] <;> rfl

variable {s}

/-- A rule that does not read the two parts agrees through `complete`, where it answers and where it raises. -/
theorem AgreesUnread.complete {i : Instr} {t : State} {r r' : Except Raise State}
    (hr : r' = r.map (·.withUnread b f)) (h : complete i s r = .next t) :
    ∃ u, complete i (s.withUnread b f) r' = .next u ∧ AgreesUnread u t := by
  obtain rfl | ⟨e, rfl, rfl⟩ := complete_cases h <;> subst hr
  · exact ⟨t.withUnread b f, rfl, rfl⟩
  · exact ⟨(s.withUnread b f).raiseIn i e, rfl, rfl⟩

/-- With other values in the two parts, an execute phase does the same everywhere else. -/
theorem exec_withUnread {i : Instr} {t : State} (h : exec i s = .next t) :
    ∃ u, exec i (s.withUnread b f) = .next u ∧ AgreesUnread u t := by
  cases i with
  | ret ign => exact AgreesUnread.complete b f (popPc_withUnread s b f) h
  | call nnn => exact AgreesUnread.complete b f (pushPc_withUnread s b f _) h
  | skp x ign | sknp x ign => exact AgreesUnread.complete b f (skipOnKey_withUnread s b f x _) h
  | drw x y n => exact AgreesUnread.complete b f (drawSprite_withUnread s b f _ x y n) h
  | ldB x | storeRegs x => exact AgreesUnread.complete b f (storeAtIndex_withUnread s b f _ _) h
  | loadRegs x => exact AgreesUnread.complete b f (loadFromIndex_withUnread s b f _ _) h
  | seImm x kk | sneImm x kk | seReg x y ign | sneReg x y ign =>
    cases h
    exact ⟨_, congrArg Host.Outcome.next (skipIf_withUnread s b f _), rfl⟩
  | ldVxK x =>
    cases h
    exact ⟨_, congrArg Host.Outcome.next (waitForKey_withUnread s b f x), rfl⟩
  | _ =>
    cases h
    exact ⟨_, rfl, rfl⟩

/-- Neither part is read to decide what is raised. -/
theorem Raises.withUnread {i : Instr} {e : Raise} (h : Raises s i e) : Raises (s.withUnread b f) i e :=
  h.congr rfl (fun _ => rfl) rfl

/-- FAULT is written where a fault is taken, with the same record whatever it held, and is kept elsewhere. -/
theorem exec_faultReg_withUnread {i : Instr} {t u : State} (h : exec i s = .next t)
    (hu : exec i (s.withUnread b f) = .next u) :
    (t.faultReg = s.faultReg ∧ u.faultReg = f) ∨ (t.halted ∧ u.faultReg = t.faultReg) := by
  by_cases hr : ∃ e, Raises s i e
  · obtain ⟨e, he⟩ := hr
    rw [exec_of_raises he] at h
    rw [exec_of_raises (he.withUnread b f)] at hu
    cases h
    cases hu
    exact .inr ⟨he.cause_ne_noFault, rfl⟩
  · have hru (e : Raise) (he : Raises (s.withUnread b f) i e) : False :=
      hr ⟨e, he.congr rfl (fun _ => rfl) rfl⟩
    exact .inl ⟨(exec_frame h (not_exists.mp hr)).1.faultReg_eq (not_assigns_faultReg _ i),
      (exec_frame hu hru).1.faultReg_eq (not_assigns_faultReg _ i)⟩

end

/-- LD ST, Vx writes the same ST whatever it held; every other execute phase keeps it. -/
theorem exec_st_withUnread {i : Instr} {s t u : State} {f : FaultReg} (h : exec i s = .next t)
    (hu : exec i (s.withUnread s.st f) = .next u) : u.st = t.st := by
  by_cases hi : ∃ x, i = .ldSTVx x
  · obtain ⟨x, rfl⟩ := hi
    cases h
    cases hu
    rfl
  · rw [exec_st h (not_exists.mp hi), exec_st hu (not_exists.mp hi)]
    rfl

/-! ### The obligations -/

/-- Settles O22: an execute phase with other values in ST and FAULT agrees in every other part, and each of the two is
then what the run without the change left, or the value put there. -/
theorem soundTimerAndFaultAreUnread : Obligations.SoundTimerAndFaultAreUnread := by
  intro i s t b f h
  constructor
  · obtain ⟨u, hu, hagree⟩ := exec_withUnread b s.faultReg h
    refine ⟨u, hu, ?_, fun hi => exec_st hu hi⟩
    have hfault : u.faultReg = t.faultReg := by
      obtain ⟨ht, hu⟩ | ⟨-, hu⟩ := exec_faultReg_withUnread b s.faultReg h hu
      · rw [ht, hu]
      · exact hu
    rw [AgreesUnread, ← hfault] at hagree
    exact hagree
  · obtain ⟨u, hu, hagree⟩ := exec_withUnread s.st f h
    refine ⟨u, hu, ?_, exec_faultReg_withUnread s.st f h hu⟩
    rw [AgreesUnread, ← exec_st_withUnread h hu] at hagree
    exact hagree

end Sys2Proof.Machine
end

section
/-! PROOFS. The stack, the flag writers and the other register rules (41_control_flow.md section 2, 42_alu.md,
44_keypad_timers.md section 1, 45_index_memory.md section 1): what each answers, and that nothing else changes. -/

namespace Sys2Proof.Machine

/-! ### Numbers -/

/-- The slot above sp, read back at the incremented sp. -/
theorem toNat_sp_add_one {b : Byte} (h : b.toNat < 15) : (b + 1).toNat = b.toNat + 1 := by
  bv_omega

theorem toNat_sp_sub_one {b : Byte} (h : b ≠ 0) : (b - 1).toNat = b.toNat - 1 := by
  bv_omega

/-- A subtraction of bytes is the difference modulo 256 (42_alu.md R138). -/
theorem toNat_byte_sub (a b : Byte) : ((a - b).toNat : Int) = (a.toNat - b.toNat : Int) % 256 := by
  have ha := a.isLt
  have hb := b.isLt
  rw [BitVec.toNat_sub]
  omega

@[simp] theorem toNat_flagByte (c : Bool) : (flagByte c).toNat = c.toNat := by
  cases c <;> rfl

theorem toNat_flagByte_lowBit (a : Byte) : (flagByte (lowBit a)).toNat = a.toNat % 2 := by
  rw [toNat_flagByte, lowBit, BitVec.getLsbD, Nat.toNat_testBit, pow_zero, Nat.div_one]

theorem toNat_flagByte_highBit (a : Byte) : (flagByte (highBit a)).toNat = a.toNat / 128 := by
  have ha := a.isLt
  rw [toNat_flagByte, highBit, BitVec.getLsbD, Nat.toNat_testBit]
  omega

theorem toNat_glyphAddress (v : Byte) : (glyphAddress hw v).toNat = 0x050 + 5 * (v.toNat % 16) := by
  have hmask : (v &&& 0x0F).toNat = v.toNat % 16 := by
    rw [BitVec.toNat_and]
    exact Nat.and_two_pow_sub_one_eq_mod v.toNat 4
  rw [glyphAddress, hmask, BitVec.toNat_ofNat]
  show (80 + _) % _ = _
  omega

/-! ### Flag writers -/

/-- What a flag writer answers: the result in V[x], the flag in VF unless the result went there (D6), nothing else. -/
theorem setFlagThenReg_spec (s : State) (f : Bool) (x : Nibble) (b : Byte) :
    (s.setFlagThenReg f x b).reg x = b ∧ (x ≠ vf → (s.setFlagThenReg f x b).reg vf = flagByte f) := by
  refine ⟨by simp, fun hx => ?_⟩
  rw [State.reg_setFlagThenReg, if_neg (Ne.symm hx), if_pos rfl]

/-! ### The obligations -/

/-- Settles O25: the push of the advanced pc, and the jump. -/
theorem callPushesAndJumps : Obligations.CallPushesAndJumps := by
  intro nnn s h
  exact ⟨_, exec_call_ok nnn h, toNat_sp_add_one h, (stack_set _ _ _ _).trans (if_pos rfl), toNat_addrOperand nnn,
    .push s _ _ _ _⟩

/-- Settles O26: the pop, which leaves the entry in its slot. -/
theorem returnPops : Obligations.ReturnPops := by
  intro ign s h
  exact ⟨_, exec_ret_ok ign h, rfl, toNat_sp_sub_one h, .pop s _ _⟩

/-- Settles O27: the call leaves sp not 0, and its return address in the slot that the return reads. -/
theorem callReturnRoundTrip : Obligations.CallReturnRoundTrip := by
  intro nnn ign s t t' h hcall hsp hstack
  rw [exec_call_ok nnn h] at hcall
  cases hcall
  have hsp1 : t'.sp = s.sp + 1 := hsp
  have hne : t'.sp ≠ 0 := by
    rw [hsp1]
    bv_omega
  refine ⟨_, exec_ret_ok ign hne, ?_, ?_⟩
  · show t'.stack[slot t'.sp] = s.pc
    simp only [hstack, hsp1]
    exact (stack_set _ _ _ _).trans (if_pos rfl)
  · show t'.sp - 1 = s.sp
    rw [hsp1, BitVec.add_sub_cancel]

/-- Settles O31: the rule is one register write. -/
theorem registerCopy : Obligations.RegisterCopy :=
  fun x y s => ⟨s.setReg x (s.reg y), rfl, s.reg_setReg_same x _, .setReg s x _⟩

/-- Settles O33: the 8-bit sum is the exact one modulo 256, and the carry compares the exact one. -/
theorem addSetsCarry : Obligations.AddSetsCarry := by
  intro x y s
  obtain ⟨hx, hvf⟩ := setFlagThenReg_spec s (carryOut (s.reg x) (s.reg y)) x (s.reg x + s.reg y)
  refine ⟨_, rfl, ?_, fun hne => ?_, .setFlagThenReg s _ x _⟩
  · rw [hx, BitVec.toNat_add]
  · rw [hvf hne]
    simp [flagByte, carryOut]

/-- A subtraction into V[x] with the not-borrow flag, whichever register is the minuend. -/
theorem exec_subtract {i : Instr} {x : Nibble} {a b : Byte} {s : State}
    (h : exec i s = .next (s.setFlagThenReg (noBorrow a b) x (a - b))) :
    ∃ t, exec i s = .next t ∧ ((t.reg x).toNat : Int) = (a.toNat - b.toNat : Int) % 256 ∧
      (x ≠ vf → t.reg vf = if a.toNat ≥ b.toNat then 1 else 0) ∧
      OnlyChanges (fun p => p = .reg x ∨ p = .reg vf) s t := by
  obtain ⟨hx, hvf⟩ := setFlagThenReg_spec s (noBorrow a b) x (a - b)
  refine ⟨_, h, ?_, fun hne => ?_, .setFlagThenReg s _ x _⟩
  · rw [hx, toNat_byte_sub]
  · rw [hvf hne]
    simp [flagByte, noBorrow]

/-- Settles O34: SUB and SUBN are one subtraction with the operands exchanged. -/
theorem subtractSetsNotBorrow : Obligations.SubtractSetsNotBorrow :=
  fun _ _ _ => ⟨exec_subtract rfl, exec_subtract rfl⟩

/-- Settles O35: a shift by one divides or doubles, and the bit it moves out is the remainder or bit 7. -/
theorem shiftsSetBitShiftedOut : Obligations.ShiftsSetBitShiftedOut := by
  intro x y s
  constructor
  · obtain ⟨hx, hvf⟩ := setFlagThenReg_spec s (lowBit (s.reg y)) x (s.reg y >>> 1)
    refine ⟨_, rfl, ?_, fun hne => ?_, .setFlagThenReg s _ x _⟩
    · exact (congrArg _ hx).trans (by rw [BitVec.toNat_ushiftRight, Nat.shiftRight_one])
    · exact (congrArg _ (hvf hne)).trans (toNat_flagByte_lowBit _)
  · obtain ⟨hx, hvf⟩ := setFlagThenReg_spec s (highBit (s.reg y)) x (s.reg y <<< 1)
    refine ⟨_, rfl, ?_, fun hne => ?_, .setFlagThenReg s _ x _⟩
    · exact (congrArg _ hx).trans (by rw [BitVec.toNat_shiftLeft, Nat.shiftLeft_eq])
    · exact (congrArg _ (hvf hne)).trans (toNat_flagByte_highBit _)

/-- Settles O36: whatever byte is drawn, the mask clears every bit outside kk. -/
theorem randomIsMaskedDraw : Obligations.RandomIsMaskedDraw := by
  intro x kk s
  refine ⟨⟨s.drawn.setReg x (s.rand8 &&& kk), rfl, ?_, rfl, ?_⟩, fun r => ⟨_, rfl, State.reg_setReg_same _ x _⟩⟩
  · rw [State.reg_setReg_same, BitVec.and_assoc, BitVec.and_not_self]
    exact BitVec.and_zero
  · exact ((OnlyChanges.drawn s).mono fun p hp => .inr hp).trans
      ((OnlyChanges.setReg s.drawn x _).mono fun p hp => .inl hp)

/-- Settles O40: below 16 the key is read, and the skip is taken on the flag SKP or SKNP wants. -/
theorem keySkips : Obligations.KeySkips := by
  intro x ign s k hk
  have hlt : (s.reg x).toNat < 16 := hk ▸ k.isLt
  have hkey : s.keys[(s.reg x).toNat] = s.keys[k] := by simp [hk]
  refine ⟨⟨_, exec_skp_ok ign hlt, ?_, .skipIf s _⟩, ⟨_, exec_sknp_ok ign hlt, ?_, .skipIf s _⟩⟩
  · rw [toNat_skipIf_pc, hkey]
    cases s.keys[k] <;> rfl
  · rw [toNat_skipIf_pc, hkey]
    cases s.keys[k] <;> rfl

/-- Settles O46: the mask keeps the low digit, and the address of its glyph fits in 16 bits. -/
theorem fontAddress : Obligations.FontAddress :=
  fun x s => ⟨s.setIndex (glyphAddress hw (s.reg x)), rfl, toNat_glyphAddress _, .setIndex s _⟩

end Sys2Proof.Machine
end

section
/-! PROOFS. DRW inside memory (43_display.md section 2): the pixels it toggles, the collision, and the double-draw
law. -/

namespace Sys2Proof.Machine

/-- Two states with the same anchor, I and sprite bytes draw the same sprite. -/
theorem spriteCovers_congr {s t : State} {x y n : Nibble} (hi : t.i = s.i) (hx : t.reg x = s.reg x)
    (hy : t.reg y = s.reg y)
    (hm : ∀ r < n.toNat, t.mem.read (s.i.toNat + r) = s.mem.read (s.i.toNat + r)) (px : Fin 64) (py : Fin 32) :
    spriteCovers t x y n px py = spriteCovers s x y n px py := by
  simp only [spriteCovers, hi, hx, hy]
  by_cases hr : (s.reg y).toNat % 32 ≤ py.val ∧ py.val < (s.reg y).toNat % 32 + n.toNat
  · rw [hm (py.val - (s.reg y).toNat % 32) (by omega)]
  · rcases not_and_or.mp hr with h | h <;> simp [h]

/-- VF holds a flag as 1 or 0. -/
theorem flagByte_eq_one {c : Bool} : flagByte c = 1 ↔ c = true := by
  cases c <;> decide

/-- VF after a draw is its collision. -/
theorem reg_vf_draw (s : State) (hit : Bool) (fb : Framebuffer) :
    ((s.setReg vf (flagByte hit)).setFb fb).reg vf = flagByte hit :=
  State.reg_setReg_same s vf _

/-! ### The obligations -/

/-- Settles O38: the draw toggles the pixels that the sprite covers, and VF is whether one of them was on. -/
theorem drawTogglesCoveredPixels : Obligations.DrawTogglesCoveredPixels := by
  intro x y n s h
  obtain ⟨fb, hit, hok, hfb, hhit⟩ := exec_drw_ok x y h
  refine ⟨_, hok, hfb, ?_, ?_, .draw hfb _⟩
  · rw [reg_vf_draw]
    cases hit
    · exact .inr rfl
    · exact .inl rfl
  · rw [reg_vf_draw, flagByte_eq_one, hhit]

/-- Settles O39: the second draw covers the same pixels, so it toggles each of them back, and it collides with those
that the first turned on. -/
theorem doubleDrawRestoresFramebuffer : Obligations.DoubleDrawRestoresFramebuffer := by
  intro x y n s t t' hxvf hyvf hn hdraw hfb' hi' hx' hy' hmem'
  obtain ⟨fb, hit, hok, hfb, -⟩ := exec_drw_ok x y hn
  rw [hok] at hdraw
  cases hdraw
  have hi : t'.i = s.i := hi'
  have hx : t'.reg x = s.reg x := hx'.trans (by simp [hxvf])
  have hy : t'.reg y = s.reg y := hy'.trans (by simp [hyvf])
  have hcovers := spriteCovers_congr hi hx hy hmem'
  have hfbt : t'.fb = fb := hfb'
  obtain ⟨fb2, hit2, hok2, hfb2, hhit2⟩ := exec_drw_ok (s := t') x y (by rw [hi]; exact hn)
  refine ⟨_, hok2, Framebuffer.ext_pixel fun px py => ?_, ?_⟩
  · show fb2.pixel px py = _
    rw [hfb2, hfbt, hfb, hcovers, Bool.xor_assoc, Bool.xor_self, Bool.xor_false]
  · rw [reg_vf_draw, flagByte_eq_one, hhit2]
    simp only [hcovers, hfbt, hfb]
    refine exists_congr fun px => exists_congr fun py => and_congr_right fun hc => ?_
    rw [hc, Bool.xor_true, Bool.not_eq_true']

end Sys2Proof.Machine
end

section
/-! PROOFS. Transfers between registers and memory, and the fetch after a store (45_index_memory.md section 2,
20_memory.md section 3). -/

namespace Sys2Proof.Machine

/-- The three digits of a byte are bytes (45_index_memory.md R203). -/
theorem toNat_decimalDigits (v : Byte) :
    (decimalDigits v).map BitVec.toNat = [v.toNat / 100, v.toNat / 10 % 10, v.toNat % 10] := by
  have hv := v.isLt
  have h100 : v.toNat / 100 % 2 ^ 8 = v.toNat / 100 := Nat.mod_eq_of_lt (by omega)
  have h10 : v.toNat / 10 % 10 % 2 ^ 8 = v.toNat / 10 % 10 := Nat.mod_eq_of_lt (by omega)
  have h1 : v.toNat % 10 % 2 ^ 8 = v.toNat % 10 := Nat.mod_eq_of_lt (by omega)
  simp only [decimalDigits, List.map_cons, List.map_nil, BitVec.toNat_ofNat, h100, h10, h1]

/-- LD [I], Vx stores V[r] at I + r, for each of its registers. -/
theorem StoredAtIndex.read_firstRegs {s : State} {x : Nibble} {m : Memory}
    (hm : StoredAtIndex s (s.firstRegs (x.toNat + 1)) m) {r : Nibble} (hr : r.toNat ≤ x.toNat) :
    m.read (s.i.toNat + r.toNat) = s.reg r := by
  rw [hm.stored r.toNat (by rw [length_firstRegs_succ]; omega), State.getD_firstRegs s _ r (Nat.lt_succ_of_le hr)]

/-! ### The obligations -/

/-- Settles O47: the bytes stored from I on are the three digits. -/
theorem storeBcdWritesDigits : Obligations.StoreBcdWritesDigits := by
  intro x s h
  obtain ⟨m, hok, hm⟩ := exec_ldB_ok x h
  have hdigits := toNat_decimalDigits (s.reg x)
  simp only [decimalDigits, List.map_cons, List.map_nil, List.cons.injEq, and_true] at hdigits
  obtain ⟨h100, h10, h1⟩ := hdigits
  refine ⟨s.setMem m, hok, ?_, ?_, ?_, .store hm⟩
  · exact (congrArg _ (hm.stored 0 (by simp [decimalDigits]))).trans h100
  · exact (congrArg _ (hm.stored 1 (by simp [decimalDigits]))).trans h10
  · exact (congrArg _ (hm.stored 2 (by simp [decimalDigits]))).trans h1

/-- Settles O48: the bytes stored from I on are V[0] to V[x]. -/
theorem storeRegistersToMemory : Obligations.StoreRegistersToMemory := by
  intro x s h
  obtain ⟨m, hok, hm⟩ := exec_storeRegs_ok h
  exact ⟨s.setMem m, hok, fun r hr => hm.read_firstRegs hr, .storeRegs hm⟩

/-- Settles O49: only the registers up to V[x] are written. -/
theorem loadRegistersFromMemory : Obligations.LoadRegistersFromMemory := by
  intro x s h
  obtain ⟨t, hok, ht, hreg⟩ := exec_loadRegs_ok h
  refine ⟨t, hok, fun r hr => ?_, .setV _ ht fun r hr => ?_⟩
  · rw [hreg, if_pos (Nat.lt_succ_of_le hr)]
  · rw [hreg, if_neg fun hlt => hr ⟨r, Nat.le_of_lt_succ hlt, rfl⟩]

/-- Settles O53: the step stores V[j] and V[j + 1] at the two addresses that its next pc names, and that pc does not
wrap. -/
theorem storeIsSeenByNextFetch : Obligations.StoreIsSeenByNextFetch := by
  intro x j s t hn hf hw hi hj hpc hstep
  obtain ⟨m, hok, hm⟩ := exec_storeRegs_ok (s := s.advance) (x := x) hi
  have hsucc : (j + 1).toNat = j.toNat + 1 := by
    have hx := nibble_lt x
    bv_omega
  have hnext : (s.pc + 2).toNat = s.pc.toNat + 2 := by
    have hmem : s.pc.toNat + 1 < 4096 := hf
    bv_omega
  have hend : endCycle (.next (s.advance.setMem m)) = _ := endCycle_of_normalEnd hn
  rw [step_of_wordAt (decodeWord_encode rfl) hn hf hw, hok, hend] at hstep
  cases hstep
  have hhigh : m.read (s.pc.toNat + 2) = s.reg j := by
    rw [hpc]
    exact hm.read_firstRegs (Nat.le_of_succ_le hj)
  have hlow : m.read (s.pc.toNat + 2 + 1) = s.reg (j + 1) := by
    rw [hpc, Nat.add_assoc, ← hsucc]
    exact hm.read_firstRegs (by rw [hsucc]; exact hj)
  show wordOfBytes (m.read (s.pc + 2).toNat) (m.read ((s.pc + 2).toNat + 1)) = _
  rw [hnext, hhigh, hlow]
  rfl

end Sys2Proof.Machine
end

section
/-! PROOFS. LD Vx, K and the timers over many cycles (44_keypad_timers.md sections 3 and 5). -/

namespace Sys2Proof.Machine

/-! ### Waiting for a key -/

/-- A run goes on from the state that its first step answers. -/
theorem core_run_succ {n : Nat} {s t : State} (h : step s = .next t) : core.run (n + 1) s = core.run n t := by
  have hcore : core.step s = .next t := h
  simp only [Host.Core.run, hcore]

/-- A block that waits at LD Vx, K with no key pressed. -/
structure WaitsForKey (x : Nibble) (s : State) : Prop where
  normalEnd : s.normalEnd
  fetchable : s.fetchable
  wordAt : s.wordAt = encode (.ldVxK x)
  idle : s.wk = .idle
  noKey : ∀ k : Fin 16, s.keys[k] = false

/-- In Idle with no key pressed the cycle re-executes: only the timers move. -/
theorem WaitsForKey.step_eq {x : Nibble} {s : State} (h : WaitsForKey x s) : step s = .next (tick s) := by
  have hwait : waitForKey x s.advance = s := by
    simp [waitForKey, h.idle, lowestKey_none.mpr h.noKey]
  rw [step_of_wordAt (decodeWord_encode rfl) h.normalEnd h.fetchable h.wordAt]
  show endCycle (.next (waitForKey x s.advance)) = _
  rw [hwait, endCycle_of_normalEnd h.normalEnd]

/-- The tick leaves a waiting block waiting. -/
theorem WaitsForKey.tick {x : Nibble} {s : State} (h : WaitsForKey x s) : WaitsForKey x (tick s) :=
  ⟨h.normalEnd, h.fetchable, h.wordAt, h.idle, h.noKey⟩

/-- A waiting block waits on, and its timers count every cycle. -/
theorem WaitsForKey.run {x : Nibble} {s : State} (h : WaitsForKey x s) (n : Nat) :
    ∃ t, core.run n s = .next t ∧ t.pc = s.pc ∧ t.wk = .idle ∧
      t.dt.toNat = s.dt.toNat - n ∧ t.st.toNat = s.st.toNat - n := by
  induction n generalizing s with
  | zero => exact ⟨s, rfl, rfl, h.idle, rfl, rfl⟩
  | succ n ih =>
    obtain ⟨t, hrun, hpc, hwk, hdt, hst⟩ := ih h.tick
    rw [tick_dt, toNat_countDown, Nat.sub_sub, Nat.add_comm 1] at hdt
    rw [tick_st, toNat_countDown, Nat.sub_sub, Nat.add_comm 1] at hst
    exact ⟨t, (core_run_succ h.step_eq).trans hrun, hpc, hwk, hdt, hst⟩

/-! ### Timers over cycles -/

/-- What a cycle that the host drives does to the timers: SetKeys and the random byte touch neither timer, register nor
memory. -/
theorem CycleTo.timers {s t : State} (h : CycleTo s t) (hn : t.normalEnd) :
    ((∀ x, decodeWord s.wordAt ≠ .ldDTVx x) → t.dt.toNat = s.dt.toNat - 1) ∧
    ((∀ x, decodeWord s.wordAt ≠ .ldSTVx x) → t.st.toNat = s.st.toNat - 1) ∧
    (∀ x, decodeWord s.wordAt = .ldDTVx x → t.dt.toNat = (s.reg x).toNat - 1) ∧
    (∀ x, decodeWord s.wordAt = .ldSTVx x → t.st.toNat = (s.reg x).toNat - 1) ∧
    (∀ x, decodeWord s.wordAt = .ldVxDT x → t.reg x = s.dt) := by
  obtain ⟨keys, r, hstep⟩ := h
  exact timersTickEveryCycle { s with keys := keys, randIn := r } t hstep hn

/-- A timer that starts at `v - 1` after one cycle and loses 1 in each later cycle holds `v - k` after `k`. -/
theorem countDown_trace (f : Nat → Nat) (v : Nat) : ∀ k, 1 ≤ k → f 1 = v - 1 →
    (∀ j < k, 0 < j → f (j + 1) = f j - 1) → f k = v - k := by
  intro k hk h1 hstep
  induction k, hk using Nat.le_induction with
  | base => exact h1
  | succ k hk ih =>
    rw [hstep k (Nat.lt_succ_self k) hk, ih fun j hj => hstep j (Nat.lt_succ_of_lt hj)]
    omega

/-! ### The obligations -/

/-- Settles O42: the four cases of the machine, each with its frame. -/
theorem waitForKeyMachine : Obligations.WaitForKeyMachine := by
  intro x s
  refine ⟨fun hidle hno => ?_, fun k hidle hk hlow => ?_, fun k hlatch hk => ?_, fun k hlatch hk => ?_⟩
  · have hw : waitForKey x s = s.rewind := by simp [waitForKey, hidle, lowestKey_none.mpr hno]
    exact ⟨s.rewind, congrArg Host.Outcome.next hw, rfl, .rewind s⟩
  · have hw : waitForKey x s = s.rewind.setWk (.keyLatched k) := by
      simp [waitForKey, hidle, lowestKey_some.mpr ⟨hk, hlow⟩]
    exact ⟨_, congrArg Host.Outcome.next hw, rfl, rfl, ((OnlyChanges.rewind s).mono fun p hp => .inl hp).trans
      ((OnlyChanges.setWk _ _).mono fun p hp => .inr hp)⟩
  · have hw : waitForKey x s = s.rewind := by simp only [waitForKey, hlatch, hk, if_true]
    exact ⟨s.rewind, congrArg Host.Outcome.next hw, rfl, .rewind s⟩
  · have hw : waitForKey x s = (s.setReg x (BitVec.ofNat 8 k.val)).setWk .idle := by
      simp only [waitForKey, hlatch, hk, Bool.false_eq_true, if_false]
    refine ⟨_, congrArg Host.Outcome.next hw, ?_, rfl, ((OnlyChanges.setReg s x _).mono fun p hp => .inl hp).trans
      ((OnlyChanges.setWk _ _).mono fun p hp => .inr hp)⟩
    rw [State.reg_setWk, State.reg_setReg_same, BitVec.toNat_ofNat]
    exact Nat.mod_eq_of_lt (by omega)

/-- Settles O43: each step of a waiting block is the tick, which leaves it waiting. -/
theorem waitWithoutKeyKeepsTicking : Obligations.WaitWithoutKeyKeepsTicking :=
  fun _ _ hn hf hw hidle hno n => WaitsForKey.run ⟨hn, hf, hw, hidle, hno⟩ n

/-- Settles O44: the writing cycle leaves v less its own tick, and each later cycle ticks once. -/
theorem writtenTimerCountsCycles : Obligations.WrittenTimerCountsCycles := by
  intro tr k x hk hcycle hnormal
  have htimers (j : Nat) (hj : j < k) := (hcycle j hj).timers (hnormal (j + 1) hj)
  constructor
  · intro hwrite hlater
    have hdt : (tr k).dt.toNat = ((tr 0).reg x).toNat - k := by
      refine countDown_trace (fun j => (tr j).dt.toNat) _ k hk ?_ fun j hj hpos => ?_
      · obtain ⟨-, -, hset, -⟩ := htimers 0 hk
        exact hset x hwrite
      · obtain ⟨htick, -⟩ := htimers j hj
        exact htick (hlater j hj hpos)
    refine ⟨hdt, fun y u hread hu hun => ?_⟩
    obtain ⟨-, -, -, -, hreads⟩ := hu.timers hun
    rw [hreads y hread, hdt]
  · intro hwrite hlater
    refine countDown_trace (fun j => (tr j).st.toNat) _ k hk ?_ fun j hj hpos => ?_
    · obtain ⟨-, -, -, hset, -⟩ := htimers 0 hk
      exact hset x hwrite
    · obtain ⟨-, htick, -⟩ := htimers j hj
      exact htick (hlater j hj hpos)

end Sys2Proof.Machine
end

section
/-! PROOFS. Reset and the host interface (10_state.md, 60_exceptions.md section 4, 70_reset_and_hazards.md
section 1). -/

namespace Sys2Proof.Machine

/-! ### The reset contents of memory -/

theorem memDefault_of_not_font {a : Nat} (h : a < 0x050 ∨ 0x0A0 ≤ a) : memDefault a = 0 := by
  unfold memDefault
  split
  · rename_i hbase
    have hlen : hw.fontData.length ≤ a - hw.fontBase := by
      have hb : (0x050 : Nat) ≤ a := hbase
      show 80 ≤ a - 0x050
      omega
    rw [List.getD_eq_default _ _ hlen]
  · rfl

/-- The 80 bytes at 0x050 are the glyphs (10_state.md R30). -/
theorem memDefault_font : (List.range 80).map (fun j => memDefault (0x050 + j)) = fontGlyphs := by decide

/-! ### The display cells -/

/-- The rows one after another are the flattened framebuffer. -/
theorem displayCells_eq_flatten (s : State) : s.displayCells = s.fb.flatten.toList.map displayCell := by
  have hrows : s.fb.flatten.toList = s.fb.toList.flatMap Vector.toList := by
    show (s.fb.toArray.map Vector.toArray).flatten.toList = _
    rw [Array.toList_flatten, Array.toList_map, List.map_map]
    rfl
  rw [State.displayCells, hrows]

/-! ### The transactions -/

/-- A transaction other than Reset leaves FAULT of a halted block as it is. -/
theorem afterTransact_faultReg {x : Transaction} {s : State} (h : s.halted) (hx : x ≠ .reset) :
    (afterTransact x s).faultReg = s.faultReg := by
  cases x with
  | reset => exact absurd rfl hx
  | load image =>
    by_cases hl : image.length ≤ maxImage
    · rw [afterTransact_load hl]
      rfl
    · rw [afterTransact_load_refused hl]
  | setKeys keys => rfl
  | step r => rw [(haltedBlockStaysHalted s h).2 r]

/-- A cycle that runs RND masks the byte that the host has supplied (40_cycle_dispatch.md R99). -/
theorem reg_of_step_rnd {s t : State} {r kk : Byte} {x : Nibble} (hr : s.randIn = some r) (hn : s.normalEnd)
    (hf : s.fetchable) (hd : decodeWord s.wordAt = .rnd x kk) (h : step s = .next t) : t.reg x = r &&& kk := by
  have hrnd : exec (.rnd x kk) s.advance = .next (s.advance.drawn.setReg x (s.rand8 &&& kk)) := rfl
  have hend : endCycle (.next (s.advance.drawn.setReg x (s.rand8 &&& kk))) = _ := endCycle_of_normalEnd hn
  rw [step_of_fetchable hn hf, hd, hrnd, hend] at h
  cases h
  rw [State.reg_tick, State.reg_setReg_same, State.rand8, hr]
  rfl

/-! ### The obligations -/

/-- Settles O50: Reset and the first state have the reset contents; memory lists no cell, so each address reads as its
default. -/
theorem resetState : Obligations.ResetState := by
  refine ⟨fun s => ⟨resetAgain s, rfl⟩, fun t ht => ?_⟩
  obtain ⟨n, rfl⟩ : ∃ n, t = { State.reset with draws := n } := by
    obtain rfl | ⟨s, hs⟩ := ht
    · exact ⟨_, rfl⟩
    · cases hs
      exact ⟨_, rfl⟩
  exact ⟨fun _ => Vector.getElem_replicate _, rfl, rfl, fun _ => Vector.getElem_replicate _, rfl, rfl, rfl,
    fun _ => memDefault_of_not_font, memDefault_font, Framebuffer.pixel_blank, fun _ => Vector.getElem_replicate _, rfl,
    rfl⟩

/-- Settles O51: an accepted image is written byte by byte from 0x200 on, and a longer one is refused whole. -/
theorem loadWritesImage : Obligations.LoadWritesImage := by
  intro image s
  refine ⟨fun hl => ⟨_, transact_load hl, fun j hj => ?_, .setMem _ s _ fun a ha => ?_⟩,
    fun hl => ⟨transact_load_refused (Nat.not_le_of_lt hl), afterTransact_load_refused (Nat.not_le_of_lt hl)⟩⟩
  · have hin : imageBase ≤ 0x200 + j ∧ 0x200 + j < imageBase + image.length :=
      ⟨Nat.le_add_right _ _, Nat.add_lt_add_left hj _⟩
    rw [State.setMem_mem, read_writeImage, if_pos hin]
    show image.getD (0x200 + j - 0x200) 0 = image[j]
    rw [Nat.add_sub_cancel_left, List.getD_eq_getElem _ _ hj]
  · rw [read_writeImage, if_neg]
    rintro ⟨hle, hlt⟩
    obtain ⟨j, rfl⟩ := Nat.exists_eq_add_of_le hle
    exact ha ⟨j, Nat.lt_of_add_lt_add_left hlt, rfl⟩

/-- Settles O52: cell y*64 + x of the flattened rows is row y at column x. -/
theorem displayCellsAreRowMajor : Obligations.DisplayCellsAreRowMajor := by
  intro s
  rw [displayCells_eq_flatten]
  refine ⟨by simp, fun x y => ?_⟩
  have hlt : y.val * 64 + x.val < 32 * 64 := by omega
  have hdiv : (y.val * 64 + x.val) / 64 = y.val := by omega
  have hmod : (y.val * 64 + x.val) % 64 = x.val := by omega
  rw [List.getElem?_map, Vector.getElem?_toList, Vector.getElem?_flatten, dif_pos hlt]
  simp only [hdiv, hmod]
  rfl

/-- Settles O54: the transaction is one write of the key flags. -/
theorem setKeysWritesAllFlags : Obligations.SetKeysWritesAllFlags :=
  fun keys s => ⟨s.setKeys keys, rfl, rfl, .setKeys s keys⟩

/-- Settles O55: Reset clears FAULT, and nothing else writes it on a halted block. -/
theorem onlyResetEndsHalt : Obligations.OnlyResetEndsHalt := by
  intro x s h
  refine ⟨⟨fun hn => ?_, ?_⟩, afterTransact_faultReg h⟩
  · by_contra hx
    rw [State.normalEnd, afterTransact_faultReg h hx] at hn
    exact h hn
  · rintro rfl
    rfl

/-- Settles O56: the transaction is one step with the byte put in place, which RND then reads. -/
theorem stepTransactionRunsOneCycle : Obligations.StepTransactionRunsOneCycle := by
  intro r s hn
  obtain ⟨t, ht⟩ := everyCycleCompletes.2 { s with randIn := some r } hn
  exact ⟨t, ht, hostStep_next ht, fun x kk hf hd =>
    reg_of_step_rnd (s := { s with randIn := some r }) rfl hn hf hd ht⟩

end Sys2Proof.Machine
end
